-- ==== Sys2Proof/Word.lean ====
section
/-! DEFINITION. The plain words of the codec block: the 8-bit cell and the 6-bit symbol value. -/

namespace Sys2Proof

/-- A raw byte, or a character held as its ASCII code: one 8-bit cell (rules R3, R90, R91). -/
abbrev Byte := BitVec 8

/-- A symbol value, 0 to 63 (rule R3). -/
abbrev Val6 := BitVec 6

/-- The 24-bit triplet word `t` of rule R95. -/
abbrev Triplet := BitVec 24

end Sys2Proof
end

