-- ==== Sys2Proof/Syntax.lean ====
section
/-! DEFINITION. The ten operations of the block (rule R100), one constructor per row of the opcode table. -/

namespace Sys2Proof

/-- The two units of the block (rules R20, R197). -/
inductive UnitId where
  | enc  -- unit `ENC`, the encoder
  | dec  -- unit `DEC`, the decoder
  deriving DecidableEq, Repr

/-- A symbol: a 6-bit value or the PAD marker (rules R36, R92). -/
inductive Symbol where
  | data (v : Val6)
  | pad
  deriving DecidableEq, Repr

/-- The ten operations (rule R100). A leaf or group operation carries the operand its word carries;
a command's operand is the message standing in the unit's buffer (rule R103). -/
inductive Instr where
  | s2c (sym : Symbol)             -- R120
  | c2s (c : Byte)                 -- R121
  | pack3 (b0 b1 b2 : Byte)        -- R131
  | pack2 (b0 b1 : Byte)           -- R132
  | pack1 (b0 : Byte)              -- R133
  | unpack3 (c0 c1 c2 c3 : Byte)   -- R141
  | unpack2 (c0 c1 c2 : Byte)      -- R142, `c3` is the pad character
  | unpack1 (c0 c1 : Byte)         -- R143, `c2` and `c3` are the pad character
  | encode                         -- R160, START of unit `ENC`
  | decode                         -- R172, START of unit `DEC`
  deriving DecidableEq, Repr

end Sys2Proof
end

