-- ==== Sys2Proof/Config.lean ====
section
/-! DEFINITION. What an implementation fixes (the buffer capacities, rule R6) and the free values of the model. -/

namespace Sys2Proof

/-- The two open parameters of the block (rules R5, R6). -/
structure Caps where
  /-- `E_ICAP`: cells of the encoder's input buffer. -/
  eIcap : Nat
  /-- `D_ICAP`: cells of the decoder's input buffer. -/
  dIcap : Nat
  deriving DecidableEq, Repr

/-- `x_ICAP` (rule R6). -/
def Caps.icap (c : Caps) : UnitId → Nat
  | .enc => c.eIcap
  | .dec => c.dIcap

/-- `x_OCAP`, derived from `x_ICAP` (rules R6, R158, R170). -/
def Caps.ocap (c : Caps) : UnitId → Nat
  | .enc => 4 * ((c.eIcap + 2) / 3)
  | .dec => 3 * (c.dIcap / 4)

/-- `x_LENW`: the smallest width that holds every value of `[0, max(ICAP, OCAP)]` (rule R6). -/
def Caps.lenWidth (c : Caps) (u : UnitId) : Nat :=
  Nat.log2 (max (c.icap u) (c.ocap u)) + 1

/-- By how much `E_ICAP` exceeds its least value 1: open (rule R6, U14), log entry 5. -/
opaque Config.eIcapAboveOne : Nat

/-- By how much `D_ICAP` exceeds its least value 4: open (rule R6, U14), log entry 5. -/
opaque Config.dIcapAboveFour : Nat

/-- The capacities of this block: any `E_ICAP >= 1` and any `D_ICAP >= 4` (rule R6). -/
def Config.caps : Caps :=
  { eIcap := Config.eIcapAboveOne + 1, dIcap := Config.dIcapAboveFour + 4 }

/-- Free value: what the host reads from a written output cell outside the result (rule R81, U7), log entry 6. -/
opaque Config.freeByte : Nat → Byte

/-- Free value: which of the enabled agents moves next when the state does not name one (rules R21, R197), log entry 2. -/
opaque Config.choice : Nat → Nat

end Sys2Proof
end

