-- ==== Sys2Proof/WellFormed.lean ====
section
/-! DEFINITION. Which terms of `Instr` a word can stand for: the unpacker forms exclude the pads that select another
form (rules R102, R141, R142). Every other term is well formed. -/

namespace Sys2Proof

/-- The code of the pad character `=` (rule R93). -/
abbrev padCode : Byte := 0x3D

/-- A term is well formed when the selection of its form (rules R101 to R103) can pick it. -/
def Instr.wellFormed : Instr → Bool
  | .s2c _ => true
  | .c2s _ => true
  | .pack3 _ _ _ => true
  | .pack2 _ _ => true
  | .pack1 _ => true
  | .unpack3 _ _ _ c3 => c3 != padCode
  | .unpack2 _ _ c2 => c2 != padCode
  | .unpack1 _ _ => true
  | .encode => true
  | .decode => true

end Sys2Proof
end

