-- ==== Sys2Proof/Decode.lean ====
section
/-! DEFINITION. The decoder and, after it, the encoder of operation words (rules R92, R95, R97, R100 to R103). Which
operation a word belongs to is decided by the place where it is driven, its `Port`: the rows of the opcode table have no
common opcode field. -/

namespace Sys2Proof

/-- Where a word is driven (rules R100 to R103). -/
inductive Port where
  | symbol                 -- the input of `S2C`: 7 bits (R92)
  | char                   -- the input of `C2S`: 8 bits (R91)
  | triplet                -- the input of the packer: 26 bits (R95)
  | quad                   -- the input of the unpacker: 32 bits (R97)
  | control (u : UnitId)   -- register 0 of a unit, `x_CTRL`: 1 bit (R29, R103)
  deriving DecidableEq, Repr

/-- Why a word is no operation. -/
inductive DecodeError where
  | upperBits      -- a bit beyond the format's width is 1 (R109 (c), U9)
  | countZero      -- the packer count is `0b00` (R109 (a), U1)
  | noOperation    -- a write of 0 to `x_CTRL` (R30)
  | wrongLength    -- the number of bytes is not the port's
  deriving DecidableEq, Repr

/-- The width of a port's word in bits. -/
def Port.width : Port → Nat
  | .symbol => 7
  | .char => 8
  | .triplet => 26
  | .quad => 32
  | .control _ => 1

/-- The number of whole bytes that hold a port's word. -/
def Port.bytes : Port → Nat
  | .symbol => 1
  | .char => 1
  | .triplet => 4
  | .quad => 4
  | .control _ => 1

/-- The number whose byte 0 is its least significant: the numbering of the opcode table. -/
def wordOfBytes : List Byte → Nat
  | [] => 0
  | b :: bs => b.toNat + 256 * wordOfBytes bs

/-- The low `n` bytes of a number, least significant first. -/
def bytesOfWord : Nat → Nat → List Byte
  | 0, _ => []
  | n + 1, w => BitVec.ofNat 8 w :: bytesOfWord n (w / 256)

/-- Byte lane `k` of a number, lane 0 the least significant. -/
def lane (w k : Nat) : Byte := BitVec.ofNat 8 (w >>> (8 * k))

/-- The symbol on seven wires: `P` bit 6, `V` bits 5:0, `V` ignored when `P` is 1 (rule R92). -/
def symbolOfWires (w : BitVec 7) : Symbol :=
  if w.getLsbD 6 then .pad else .data (w.setWidth 6)

/-- The seven wires of a symbol, `V` driven 0 for PAD (rule R92). -/
def wiresOfSymbol : Symbol → BitVec 7
  | .data v => v.setWidth 7
  | .pad => 0x40#7

/-- The packer form by the count `n` alone; absent lanes are immaterial (rules R101, R104, R130). -/
def packForm (n : BitVec 2) (b0 b1 b2 : Byte) : Except DecodeError Instr :=
  if n = 3 then .ok (.pack3 b0 b1 b2)
  else if n = 2 then .ok (.pack2 b0 b1)
  else if n = 1 then .ok (.pack1 b0)
  else .error .countZero

/-- The unpacker form by the trailing-pad pattern, tested in the order of rule R102. -/
def unpackForm (c0 c1 c2 c3 : Byte) : Instr :=
  if c2 = padCode ∧ c3 = padCode then .unpack1 c0 c1
  else if c3 = padCode then .unpack2 c0 c1 c2
  else .unpack3 c0 c1 c2 c3

/-- The command of a unit: the unit addressed is the opcode (rule R103). -/
def commandOf : UnitId → Instr
  | .enc => .encode
  | .dec => .decode

/-- The operation a word stands for at a port; total, rejecting by name. -/
def decodeWord : Port → Nat → Except DecodeError Instr
  | .symbol, w =>
    if w < 2 ^ 7 then .ok (.s2c (symbolOfWires (BitVec.ofNat 7 w))) else .error .upperBits
  | .char, w =>
    if w < 2 ^ 8 then .ok (.c2s (lane w 0)) else .error .upperBits
  | .triplet, w =>
    if w < 2 ^ 26 then packForm (BitVec.ofNat 2 (w >>> 24)) (lane w 2) (lane w 1) (lane w 0)
    else .error .upperBits
  | .quad, w =>
    if w < 2 ^ 32 then .ok (unpackForm (lane w 3) (lane w 2) (lane w 1) (lane w 0))
    else .error .upperBits
  | .control u, w =>
    if w = 0 then .error .noOperation
    else if w = 1 then .ok (commandOf u)
    else .error .upperBits

/-- The decoder: any bytes driven at any port. -/
def decodeBytes (p : Port) (bs : List Byte) : Except DecodeError Instr :=
  if bs.length = p.bytes then decodeWord p (wordOfBytes bs) else .error .wrongLength

/-- The port at which an operation's word is driven (rules R100, R103). -/
def Instr.port : Instr → Port
  | .s2c _ => .symbol
  | .c2s _ => .char
  | .pack3 _ _ _ => .triplet
  | .pack2 _ _ => .triplet
  | .pack1 _ => .triplet
  | .unpack3 _ _ _ _ => .quad
  | .unpack2 _ _ _ => .quad
  | .unpack1 _ _ => .quad
  | .encode => .control .enc
  | .decode => .control .dec

/-- A 26-bit triplet operand (rule R95). -/
def tripletWord (n : BitVec 2) (b0 b1 b2 : Byte) : Nat :=
  ((n ++ b0 ++ b1 ++ b2 : BitVec 26)).toNat

/-- A 32-bit quad word (rule R97). -/
def quadWord (c0 c1 c2 c3 : Byte) : Nat :=
  ((c0 ++ c1 ++ c2 ++ c3 : BitVec 32)).toNat

/-- The word of an operation, absent lanes driven 0 (rules R92, R95, R97, R102 to R104). -/
def encodeWord : Instr → Nat
  | .s2c sym => (wiresOfSymbol sym).toNat
  | .c2s c => c.toNat
  | .pack3 b0 b1 b2 => tripletWord 3 b0 b1 b2
  | .pack2 b0 b1 => tripletWord 2 b0 b1 0
  | .pack1 b0 => tripletWord 1 b0 0 0
  | .unpack3 c0 c1 c2 c3 => quadWord c0 c1 c2 c3
  | .unpack2 c0 c1 c2 => quadWord c0 c1 c2 padCode
  | .unpack1 c0 c1 => quadWord c0 c1 padCode padCode
  | .encode => 1
  | .decode => 1

/-- The encoder: the bytes of an operation's word at its port, least significant first. -/
def encode (i : Instr) : List Byte := bytesOfWord i.port.bytes (encodeWord i)

/-- Which port a word of the opcode table is read at, the table giving none (log entry 7): a word matching a packer row
goes to the packer, any other 32-bit word to the unpacker; an 8-bit word 1 is the START write to `ENC`, another word that
is a symbol's own wires goes to `S2C`, any other to `C2S`. -/
def tablePort (nbits w : Nat) : Port :=
  if nbits = 1 then .control .enc
  else if nbits = 7 then .symbol
  else if nbits = 8 then
    (if w = 1 then .control .enc else if w ≤ 0x40 then .symbol else .char)
  else if nbits = 26 then .triplet
  else if nbits = 32 then
    (if w >>> 24 = 3 ∨ (w >>> 24 = 2 ∧ w % 2 ^ 8 = 0) ∨ (w >>> 24 = 1 ∧ w % 2 ^ 16 = 0) then .triplet
     else .quad)
  else .quad

/-- The bytes of a word of the opcode table, in whole bytes. -/
def tableBytes (nbits w : Nat) : List Byte := bytesOfWord ((nbits + 7) / 8) w

/-- What the decoder reads from a word numbered as the opcode table numbers it. -/
def decodeTableWord (nbits w : Nat) : Option Instr :=
  match decodeBytes (tablePort nbits w) (tableBytes nbits w) with
  | .ok i => some i
  | .error _ => none

end Sys2Proof
end

