-- ==== Sys2Proof/Machine/State.lean ====
section
/-! DEFINITION. The state of the block: the registers, hidden cursors and buffers of the two units (10_state.md), and,
as the model's own plain data, what the host has still to do, who moves next and what has been returned. -/

namespace Sys2Proof.Machine

/-- The two error kinds (rule R180). -/
inductive Err where
  | invalidLength
  | invalidCharacter
  deriving DecidableEq, Repr

/-- A fallible result (00_scope.md section 6.2). -/
inductive Result (α : Type) where
  | ok (a : α)
  | fail (e : Err)
  deriving DecidableEq, Repr

/-- A buffer: the cells that hold a value, by address, in canonical form; an unlisted cell holds no value (rules R38, R78). -/
abbrev Memory := List Host.Cell

/-- The canonical form: addresses strictly rising. No entry equals what an unlisted cell reads as, which is no value. -/
abbrev Memory.wf (m : Memory) : Prop := m.Pairwise (fun x y => x.1 < y.1)

/-- The fields of `x_STATUS` (rule R31); `err = none` is `0b00`, and `0b11` has no value here (U10). -/
structure Status where
  busy : Bool
  done : Bool
  err : Option Err
  deriving DecidableEq, Repr

/-- The state of one unit (rules R26 to R34, R38, R39). Lengths and cursors are naturals, as rule R6 allows. -/
structure CodecUnit where
  /-- `x_STATUS` (R31). -/
  status : Status
  /-- `x_ILEN` (R32). -/
  ilen : Nat
  /-- `x_OLEN` (R34). -/
  olen : Nat
  /-- `x_N`, the latched length (R28). -/
  n : Nat
  /-- `x_IPOS`, the input cursor (R26). -/
  ipos : Nat
  /-- `x_OPOS`, the output cursor (R27). -/
  opos : Nat
  /-- `x_IBUF` (R38, R60). -/
  ibuf : Memory
  /-- `x_OBUF` (R38, R60). -/
  obuf : Memory
  deriving DecidableEq, Repr

/-- Four symbols, `s0` first (rule R96). -/
structure SymbolQuad where
  s0 : Symbol
  s1 : Symbol
  s2 : Symbol
  s3 : Symbol
  deriving DecidableEq, Repr

/-- The three agents (rule R20). -/
inductive Agent where
  | host
  | unit (u : UnitId)
  deriving DecidableEq, Repr

/-- What comes from outside: the host's moves (rules R22, R112), the reset (rule R210), and the model's own way of driving
one operation word at a port (log entry 4). -/
inductive Input where
  /-- The environment raises reset (R210, R212). -/
  | reset
  /-- A register write: `WRL` (register 2), `START` (register 0, data 1), and writes of any other number and data. -/
  | regWrite (u : UnitId) (reg data : Nat)
  /-- A register read: `RDS` (register 1), `RDL` (register 3), and reads of any other number. -/
  | regRead (u : UnitId) (reg : Nat)
  /-- A write of an input cell: `WRB`. -/
  | bufWrite (u : UnitId) (a : Nat) (v : Byte)
  /-- A read of an output cell: `RDB`. -/
  | bufRead (u : UnitId) (a : Nat)
  /-- The pseudo-move `WAIT`: `RDS` repeated until the value read has `DONE` 1. -/
  | wait (u : UnitId)
  /-- The pseudo-move `RESULT`: `RDS`, `RDL`, then `resultCells`. -/
  | result (u : UnitId)
  /-- The part of `RESULT` that depends on what was read: `RDB` of every cell of the result. -/
  | resultCells (u : UnitId)
  /-- An operation word driven at a port. -/
  | operand (p : Port) (bs : List Byte)
  deriving DecidableEq, Repr

/-- What a read or a leaf operation returns. -/
inductive Reply where
  | control (u : UnitId) (v : BitVec 1)
  | status (u : UnitId) (v : BitVec 4)
  | ilen (u : UnitId) (n : Nat)
  | olen (u : UnitId) (n : Nat)
  | cell (u : UnitId) (a : Nat) (v : Byte)
  | char (c : Byte)
  | value (r : Result Val6)
  | symbols (q : SymbolQuad)
  | bytes (r : Result (List Byte))
  deriving DecidableEq, Repr

/-- The state of the block and of what stands around it. -/
structure State where
  /-- Unit `ENC`. -/
  enc : CodecUnit
  /-- Unit `DEC`. -/
  dec : CodecUnit
  /-- The model's own: what comes from outside, oldest first (log entry 1). -/
  inputs : List Input
  /-- The model's own: who moves next, first mover first (log entry 2). -/
  turns : List Agent
  /-- The model's own: how many free values have been drawn (log entry 3). -/
  tick : Nat
  /-- The model's own: what has been returned, newest first (log entry 4). -/
  replies : List Reply
  deriving DecidableEq, Repr

/-- The model's faults. All are safe: the machine stops where rules R63 and R64 say the access is never made. -/
inductive Fault where
  /-- Raised by `memRead`: a unit reads a cell at or beyond `x_N` (R63). Safe; no state that keeps the invariant raises it. -/
  | outsideMessage
  /-- Raised by `memWrite`: a unit writes a cell at or beyond `x_OCAP` (R64). Safe; no state that keeps the invariant raises it. -/
  | outsideBuffer
  deriving DecidableEq, Repr

/-- The model's refusals: uses outside the host's contract, which the spec says a model refuses. All are safe. -/
inductive Refusal where
  /-- Raised by `exec`'s arm of an instruction without a meaning. Safe. -/
  | notModelled (mnemonic : String)
  /-- Raised by START on a busy unit (R218, U4). Safe. -/
  | startWhileBusy
  /-- Raised by any other host access to a busy unit but a read of `x_STATUS` (R216, U4). Safe. -/
  | accessWhileBusy
  /-- Raised by a write of `x_ILEN` above `x_ICAP` (R220, U5). Safe. -/
  | lengthAboveCapacity
  /-- Raised by START when a cell of the message has not been written since reset (R78, R214, U6). Safe. -/
  | messageNotWritten
  /-- Raised by a host read of an output cell that nothing has written since reset (R78, U6), and by `memRead` of such a cell
  (R63), which no state that keeps the invariant does. Safe. -/
  | cellNeverWritten
  /-- Raised by a host read of an output cell when nothing has completed since reset (R217, R219). Safe. -/
  | noResult
  /-- Raised by a host access to a cell index at or above the buffer's size (R75, U9). Safe. -/
  | noSuchCell
  /-- Raised by a host access to a register number above 3 (R75, U9). Safe. -/
  | noSuchRegister
  /-- Raised by a write, or a driven word, with a 1 above the format's width (R109 (c), U9). Safe. -/
  | upperBits
  /-- Raised by the packer given the count `0b00` (R109 (a), R134, U1). Safe. -/
  | packerCount
  /-- Raised by a driven word whose number of bytes is not its port's (R145, U3). Safe. -/
  | wordLength
  deriving DecidableEq, Repr

/-- A unit after reset (rule R41): idle, all registers 0, no cell holds a value. -/
def CodecUnit.reset : CodecUnit :=
  { status := { busy := false, done := false, err := none }
    ilen := 0, olen := 0, n := 0, ipos := 0, opos := 0, ibuf := [], obuf := [] }

/-- The machine right after reset (rules R41, R211). -/
def State.reset : State :=
  { enc := CodecUnit.reset, dec := CodecUnit.reset, inputs := [], turns := [], tick := 0, replies := [] }

end Sys2Proof.Machine
end

