-- ==== Sys2Proof/Machine/Flags.lean ====
section
/-! DEFINITION. The fields of `x_STATUS`, how each event writes them, and the register as the host reads it
(rules R29 to R33, R180, R186). The block has no other flag (R35). -/

namespace Sys2Proof.Machine

/-- The codes of `x_STATUS.ERR` (rule R180). -/
def errCode : Option Err → BitVec 2
  | none => 0b00#2
  | some .invalidLength => 0b01#2
  | some .invalidCharacter => 0b10#2

/-- `x_STATUS` as four bits `{ERR, DONE, BUSY}` (rules R29, R31, R99). -/
def statusWord (st : Status) : BitVec 4 :=
  errCode st.err ++ BitVec.ofBool st.done ++ BitVec.ofBool st.busy

/-- What an accepted START leaves: BUSY 1, DONE 0, ERR `0b00` (rule R30). -/
def statusAtStart (_ : Status) : Status := { busy := true, done := false, err := none }

/-- What a successful completion leaves: BUSY 0, DONE 1, ERR as it was (rules R160, R172). -/
def statusAtSuccess (st : Status) : Status := { st with busy := false, done := true }

/-- What an error completion leaves: BUSY 0, DONE 1, ERR the code of the error (rule R186). -/
def statusAtError (e : Err) (_ : Status) : Status := { busy := false, done := true, err := some e }

end Sys2Proof.Machine
end

