-- ==== Sys2Proof/Machine/Operands.lean ====
section
/-! DEFINITION. The operand forms and the pure functions of the leaf operations: the alphabet (R93, R94, R120, R121),
the triplet word and its fields (R104, R105, R130 to R133), the quad and its bytes (R106, R140 to R143). -/

namespace Sys2Proof.Machine

/-- The character of a symbol: rule R120, over the table of rule R93. -/
def symToChar : Symbol → Byte
  | .pad => 0x3D
  | .data v =>
    let w : Byte := v.setWidth 8
    if w ≤ 25 then 0x41 + w
    else if w ≤ 51 then 0x61 + (w - 26)
    else if w ≤ 61 then 0x30 + (w - 52)
    else if w = 62 then 0x2B
    else 0x2F

/-- The symbol value of a character: rule R121, over the classes of rule R94. -/
def charToSym (c : Byte) : Result Val6 :=
  if 0x41 ≤ c ∧ c ≤ 0x5A then .ok ((c - 0x41).setWidth 6)
  else if 0x61 ≤ c ∧ c ≤ 0x7A then .ok ((26 + (c - 0x61)).setWidth 6)
  else if 0x30 ≤ c ∧ c ≤ 0x39 then .ok ((52 + (c - 0x30)).setWidth 6)
  else if c = 0x2B then .ok 62
  else if c = 0x2F then .ok 63
  else .fail .invalidCharacter

/-- The triplet word of three byte lanes, byte0 at bits 23:16 (rules R67, R95, R104). -/
def tripletOf (b0 b1 b2 : Byte) : Triplet := b0 ++ b1 ++ b2

/-- Field `k` of the triplet word, `f0 = t[23:18]` down to `f3 = t[5:0]` (rule R105). -/
def fieldOf (t : Triplet) (k : Nat) : Val6 := t.extractLsb' (18 - 6 * k) 6

/-- PACK3 (rule R131). -/
def pack3 (b0 b1 b2 : Byte) : SymbolQuad :=
  let t := tripletOf b0 b1 b2
  ⟨.data (fieldOf t 0), .data (fieldOf t 1), .data (fieldOf t 2), .data (fieldOf t 3)⟩

/-- PACK2 (rule R132): byte2 is absent and taken as 0. -/
def pack2 (b0 b1 : Byte) : SymbolQuad :=
  let t := tripletOf b0 b1 0
  ⟨.data (fieldOf t 0), .data (fieldOf t 1), .data (fieldOf t 2), .pad⟩

/-- PACK1 (rule R133): byte1 and byte2 are absent and taken as 0. -/
def pack1 (b0 : Byte) : SymbolQuad :=
  let t := tripletOf b0 0 0
  ⟨.data (fieldOf t 0), .data (fieldOf t 1), .pad, .pad⟩

/-- The packer on a sequence of message bytes (rule R130); a length outside 1 to 3 has no meaning (rule R134, U1). -/
def packSeq : List Byte → Option SymbolQuad
  | [b0, b1, b2] => some (pack3 b0 b1 b2)
  | [b0, b1] => some (pack2 b0 b1)
  | [b0] => some (pack1 b0)
  | _ => none

/-- The four characters of a symbol quad, by four alphabet mappers (rules R96, R155). -/
def quadChars (q : SymbolQuad) : List Byte :=
  [symToChar q.s0, symToChar q.s1, symToChar q.s2, symToChar q.s3]

/-- `y0 = {v0[5:0], v1[5:4]}` (rule R106). -/
def byte0Of (v0 v1 : Val6) : Byte := v0 ++ v1.extractLsb' 4 2

/-- `y1 = {v1[3:0], v2[5:2]}` (rule R106). -/
def byte1Of (v1 v2 : Val6) : Byte := v1.extractLsb' 0 4 ++ v2.extractLsb' 2 4

/-- `y2 = {v2[1:0], v3[5:0]}` (rule R106). -/
def byte2Of (v2 v3 : Val6) : Byte := v2.extractLsb' 0 2 ++ v3

/-- `x?`: the value of a result, or the same failure (00_scope.md section 6.3). -/
def Result.bind {α β : Type} (r : Result α) (f : α → Result β) : Result β :=
  match r with
  | .ok a => f a
  | .fail e => .fail e

/-- UNPACK1 (rule R143). -/
def unpack1 (c0 c1 : Byte) : Result (List Byte) :=
  (charToSym c0).bind fun v0 => (charToSym c1).bind fun v1 => .ok [byte0Of v0 v1]

/-- UNPACK2 (rule R142). -/
def unpack2 (c0 c1 c2 : Byte) : Result (List Byte) :=
  (charToSym c0).bind fun v0 => (charToSym c1).bind fun v1 => (charToSym c2).bind fun v2 =>
    .ok [byte0Of v0 v1, byte1Of v1 v2]

/-- UNPACK3 (rule R141). -/
def unpack3 (c0 c1 c2 c3 : Byte) : Result (List Byte) :=
  (charToSym c0).bind fun v0 => (charToSym c1).bind fun v1 => (charToSym c2).bind fun v2 =>
    (charToSym c3).bind fun v3 => .ok [byte0Of v0 v1, byte1Of v1 v2, byte2Of v2 v3]

/-- The unpacker as one function, the form chosen by the trailing pads (rules R102, R140). -/
def unpack (c0 c1 c2 c3 : Byte) : Result (List Byte) :=
  if c2 = padCode ∧ c3 = padCode then unpack1 c0 c1
  else if c3 = padCode then unpack2 c0 c1 c2
  else unpack3 c0 c1 c2 c3

end Sys2Proof.Machine
end

