-- ==== Sys2Proof/Machine/Ops.lean ====
section
/-! DEFINITION. The named operations over buffers, registers and the model's own fields, shared by every meaning:
MemRead and MemWrite (R63, R64), START (R30), the completion steps (R160, R172), and the error completion (R186), the
block's one form of taking an exception. There is no return from it (R190): the next START clears what it left. -/

namespace Sys2Proof.Machine

/-- Go on with the value of a step part, or stop with its reason. -/
def andThen {α β : Type} (x : Host.Outcome α Fault Refusal) (f : α → Host.Outcome β Fault Refusal) :
    Host.Outcome β Fault Refusal :=
  match x with
  | .next a => f a
  | .fault r => .fault r
  | .refused r => .refused r

/-- What a cell holds: a value, or none if nothing has written it since reset (rules R38, R78). -/
def Memory.read : Memory → Nat → Option Byte
  | [], _ => none
  | (k, b) :: m, a => if a = k then some b else Memory.read m a

/-- Write one cell, keeping the canonical form (rule R64). -/
def Memory.write : Memory → Nat → Byte → Memory
  | [], a, v => [(a, v)]
  | (k, b) :: m, a, v =>
    if a < k then (a, v) :: (k, b) :: m
    else if a = k then (a, v) :: m
    else (k, b) :: Memory.write m a v

/-- The values of `n` cells from address `a` up, lowest first; none if one of them holds no value (rules R63, R66). -/
def readCells (m : Memory) (a : Nat) : Nat → Option (List Byte)
  | 0 => some []
  | n + 1 =>
    match Memory.read m a, readCells m (a + 1) n with
    | some b, some bs => some (b :: bs)
    | _, _ => none

/-- Write a sequence to the cells from address `a` up (rules R64, R66). -/
def writeCells (m : Memory) (a : Nat) : List Byte → Memory
  | [] => m
  | b :: bs => writeCells (Memory.write m a b) (a + 1) bs

/-- `MemRead(space, a, n)` (rule R63): never at or beyond `limit`, the latched length; never of a cell without a value. -/
def memRead (limit : Nat) (m : Memory) (a n : Nat) : Host.Outcome (List Byte) Fault Refusal :=
  if limit < a + n then .fault .outsideMessage
  else
    match readCells m a n with
    | some bs => .next bs
    | none => .refused .cellNeverWritten

/-- `MemWrite(space, a, n, s)` (rule R64): never at or beyond `cap`, the buffer's size. -/
def memWrite (cap : Nat) (m : Memory) (a : Nat) (bs : List Byte) : Host.Outcome Memory Fault Refusal :=
  if cap < a + bs.length then .fault .outsideBuffer else .next (writeCells m a bs)

/-- The unit's fields at an accepted START, one indivisible step (rule R30). -/
def CodecUnit.atStart (x : CodecUnit) : CodecUnit :=
  { x with
    status := statusAtStart x.status
    n := x.ilen
    ipos := 0
    opos := 0
    olen := 0 }

/-- The successful completion step (rules R160, R172). -/
def CodecUnit.atSuccess (x : CodecUnit) : CodecUnit :=
  { x with status := statusAtSuccess x.status, olen := x.opos }

/-- The error completion, `fail(e)`, the analogue of taking an exception (rules R172, R186). -/
def CodecUnit.atError (e : Err) (x : CodecUnit) : CodecUnit :=
  { x with status := statusAtError e x.status, olen := 0 }

/-- The group part of a unit step: the result cells are written and both cursors advance (rules R160, R172). -/
def CodecUnit.afterGroup (x : CodecUnit) (obuf : Memory) (read written : Nat) : CodecUnit :=
  { x with obuf := obuf, ipos := x.ipos + read, opos := x.opos + written }

/-- The state of one unit. -/
def State.unit (s : State) : UnitId → CodecUnit
  | .enc => s.enc
  | .dec => s.dec

/-- Replace the state of one unit; the other is not touched (rule R21). -/
def State.setUnit (s : State) (u : UnitId) (x : CodecUnit) : State :=
  match u with
  | .enc => { s with enc := x }
  | .dec => { s with dec := x }

/-- Hand a value to whoever asked for it. -/
def State.reply (s : State) (r : Reply) : State := { s with replies := r :: s.replies }

/-- Replace what is still to come from outside. -/
def State.setInputs (s : State) (xs : List Input) : State := { s with inputs := xs }

/-- Replace who moves next. -/
def State.setTurns (s : State) (ts : List Agent) : State := { s with turns := ts }

/-- A free value has been drawn. -/
def State.drawn (s : State) : State := { s with tick := s.tick + 1 }

/-- Whether every cell of the message holds a value, the host's duty before START (rules R78, R214 (b)). -/
def CodecUnit.messageWritten (x : CodecUnit) : Bool := (readCells x.ibuf 0 x.ilen).isSome

/-- START of a unit: accepted only while BUSY is 0 (rules R30, R194); while BUSY is 1 it is refused (rule R218, U4), and so is
an operation whose message includes a cell that nothing has written, whatever its length (rules R78, R214, U6, log entry 19). -/
def startUnit (u : UnitId) (s : State) : Host.Outcome State Fault Refusal :=
  if (s.unit u).status.busy then .refused .startWhileBusy
  else if (s.unit u).messageWritten = false then .refused .messageNotWritten
  else .next (s.setUnit u (s.unit u).atStart)

end Sys2Proof.Machine
end

