-- ==== Sys2Proof/Machine/Decoder.lean ====
section
/-! DEFINITION. The unit step of `DEC` (rule R172): the length check, one group, an error completion, or the completion step. -/

namespace Sys2Proof.Machine

/-- What a group step does with the unpacker's result (rules R167, R168, R172): a failure, or a padded quad that is not the
final one, is an error completion; else the bytes are written and the cursors advance. -/
def decQuad (cap : Nat) (x : CodecUnit) (r : Result (List Byte)) : Host.Outcome CodecUnit Fault Refusal :=
  match r with
  | .fail e => .next (x.atError e)
  | .ok ys =>
    if ys.length < 3 ∧ x.ipos + 4 ≠ x.n then .next (x.atError .invalidCharacter)
    else andThen (memWrite cap x.obuf x.opos ys) fun ob => .next (x.afterGroup ob 4 ys.length)

/-- The unpacker on a sequence; a quad of another length cannot be presented (rule R145, U3). -/
def unpackSeq : List Byte → Host.Outcome (Result (List Byte)) Fault Refusal
  | [c0, c1, c2, c3] => .next (unpack c0 c1 c2 c3)
  | _ => .refused .wordLength

/-- The group step of `DEC` on the unit's own state; `cap` is `D_OCAP` (rule R172). -/
def decGroup (cap : Nat) (x : CodecUnit) : Host.Outcome CodecUnit Fault Refusal :=
  andThen (memRead x.n x.ibuf x.ipos 4) fun cs =>
    andThen (unpackSeq cs) fun r => decQuad cap x r

/-- The unit step of `DEC`; with BUSY 0 the unit does nothing (rules R22, R166, R172). It may end with an error before it has read
the whole message, which START has found written (rules R78, R214). -/
def decUnitStep (cap : Nat) (x : CodecUnit) : Host.Outcome CodecUnit Fault Refusal :=
  if x.status.busy = false then .next x
  else if x.n % 4 ≠ 0 then .next (x.atError .invalidLength)
  else if x.ipos < x.n then decGroup cap x
  else .next x.atSuccess

end Sys2Proof.Machine
end

