-- ==== Sys2Proof/Machine/Encoder.lean ====
section
/-! DEFINITION. The unit step of `ENC` (rule R160): one group, or the completion step. -/

namespace Sys2Proof.Machine

/-- How many bytes the next group has: `min(3, E_N - E_IPOS)` (rules R101, R160). -/
def groupCount (x : CodecUnit) : Nat := min 3 (x.n - x.ipos)

/-- The four symbols of a group; a length outside 1 to 3 is refused (rules R130, R134, U1). -/
def packGroup (bs : List Byte) : Host.Outcome SymbolQuad Fault Refusal :=
  match packSeq bs with
  | some q => .next q
  | none => .refused .packerCount

/-- The group step of `ENC` on the unit's own state; `cap` is `E_OCAP` (rule R160). -/
def encGroup (cap : Nat) (x : CodecUnit) : Host.Outcome CodecUnit Fault Refusal :=
  andThen (memRead x.n x.ibuf x.ipos (groupCount x)) fun bs =>
    andThen (packGroup bs) fun q =>
      andThen (memWrite cap x.obuf x.opos (quadChars q)) fun ob =>
        .next (x.afterGroup ob (groupCount x) 4)

/-- The unit step of `ENC`; with BUSY 0 the unit does nothing (rules R22, R160). -/
def encUnitStep (cap : Nat) (x : CodecUnit) : Host.Outcome CodecUnit Fault Refusal :=
  if x.status.busy = false then .next x
  else if x.ipos < x.n then encGroup cap x
  else .next x.atSuccess

end Sys2Proof.Machine
end

