-- ==== Sys2Proof/Machine/AlphabetMapper.lean ====
section
/-! DEFINITION. The meanings of the alphabet mapper's operations, S2C and C2S. They read and write no state of the block
(R120, R121); their result is handed out as a reply (log entry 4). -/

namespace Sys2Proof.Machine

/-- S2C (rule R120). -/
def execS2C (sym : Symbol) (s : State) : Host.Outcome State Fault Refusal :=
  .next (s.reply (.char (symToChar sym)))

/-- C2S (rule R121): the failure is a result value; it ends an operation only through DECODE. -/
def execC2S (c : Byte) (s : State) : Host.Outcome State Fault Refusal :=
  .next (s.reply (.value (charToSym c)))

end Sys2Proof.Machine
end

