-- ==== Sys2Proof/Machine/Commands.lean ====
section
/-! DEFINITION. The meanings of the commands ENCODE and DECODE: the START step of rules R160 and R172, which the host's
write to `x_CTRL` performs once the message stands in the buffer (R214). The later steps of the operation are steps of the unit (Encoder.lean, Decoder.lean). -/

namespace Sys2Proof.Machine

/-- ENCODE (rules R30, R160): the START step of unit `ENC`. -/
def execEncode (s : State) : Host.Outcome State Fault Refusal := startUnit .enc s

/-- DECODE (rules R30, R172): the START step of unit `DEC`. -/
def execDecode (s : State) : Host.Outcome State Fault Refusal := startUnit .dec s

end Sys2Proof.Machine
end

