-- ==== Sys2Proof/Machine/QuadUnpacker.lean ====
section
/-! DEFINITION. The meanings of the quad unpacker's operations, UNPACK3, UNPACK2 and UNPACK1. They read and write no state
of the block (R141 to R143); a failure is a result value; the result is handed out as a reply (log entry 4). -/

namespace Sys2Proof.Machine

/-- UNPACK3 (rule R141). -/
def execUnpack3 (c0 c1 c2 c3 : Byte) (s : State) : Host.Outcome State Fault Refusal :=
  .next (s.reply (.bytes (unpack3 c0 c1 c2 c3)))

/-- UNPACK2 (rule R142). -/
def execUnpack2 (c0 c1 c2 : Byte) (s : State) : Host.Outcome State Fault Refusal :=
  .next (s.reply (.bytes (unpack2 c0 c1 c2)))

/-- UNPACK1 (rule R143). -/
def execUnpack1 (c0 c1 : Byte) (s : State) : Host.Outcome State Fault Refusal :=
  .next (s.reply (.bytes (unpack1 c0 c1)))

end Sys2Proof.Machine
end

