-- ==== Sys2Proof/Machine/TripletPacker.lean ====
section
/-! DEFINITION. The meanings of the triplet packer's operations, PACK3, PACK2 and PACK1. They read and write no state of
the block (R131 to R133) and are total; their result is handed out as a reply (log entry 4). -/

namespace Sys2Proof.Machine

/-- PACK3 (rule R131). -/
def execPack3 (b0 b1 b2 : Byte) (s : State) : Host.Outcome State Fault Refusal :=
  .next (s.reply (.symbols (pack3 b0 b1 b2)))

/-- PACK2 (rule R132). -/
def execPack2 (b0 b1 : Byte) (s : State) : Host.Outcome State Fault Refusal :=
  .next (s.reply (.symbols (pack2 b0 b1)))

/-- PACK1 (rule R133). -/
def execPack1 (b0 : Byte) (s : State) : Host.Outcome State Fault Refusal :=
  .next (s.reply (.symbols (pack1 b0)))

end Sys2Proof.Machine
end

