-- ==== Sys2Proof/Machine/Dispatch.lean ====
section
/-! DEFINITION. One arm per operation of the opcode table. -/

namespace Sys2Proof.Machine

def exec (i : Instr) (s : State) : Host.Outcome State Fault Refusal :=
  match i with
  | .s2c sym => Sys2Proof.Machine.execS2C sym s
  | .c2s c => Sys2Proof.Machine.execC2S c s
  | .pack3 b0 b1 b2 => Sys2Proof.Machine.execPack3 b0 b1 b2 s
  | .pack2 b0 b1 => Sys2Proof.Machine.execPack2 b0 b1 s
  | .pack1 b0 => Sys2Proof.Machine.execPack1 b0 s
  | .unpack3 c0 c1 c2 c3 => Sys2Proof.Machine.execUnpack3 c0 c1 c2 c3 s
  | .unpack2 c0 c1 c2 => Sys2Proof.Machine.execUnpack2 c0 c1 c2 s
  | .unpack1 c0 c1 => Sys2Proof.Machine.execUnpack1 c0 c1 s
  | .encode => Sys2Proof.Machine.execEncode s
  | .decode => Sys2Proof.Machine.execDecode s

end Sys2Proof.Machine
end

