-- ==== Sys2Proof/Machine/HostMoves.lean ====
section
/-! DEFINITION. The host's moves and the reset (rules R22, R29 to R32, R112, R210 to R220): what each does in each state of
the unit, by the table of rule R217. -/

namespace Sys2Proof.Machine

/-- The refusal of a word that is no operation (U1, U3, U9); a write of 0 to `x_CTRL` has no effect (rule R30). -/
def notAnOperation (e : DecodeError) (s : State) : Host.Outcome State Fault Refusal :=
  match e with
  | .noOperation => .next s
  | .upperBits => .refused .upperBits
  | .countZero => .refused .packerCount
  | .wrongLength => .refused .wordLength

/-- Run what the decoder reads. -/
def runDecoded (d : Except DecodeError Instr) (s : State) : Host.Outcome State Fault Refusal :=
  match d with
  | .ok i => exec i s
  | .error e => notAnOperation e s

/-- A host access that rule R216 forbids while the unit is busy. -/
def whenIdle (u : UnitId) (s : State) (x : Host.Outcome State Fault Refusal) : Host.Outcome State Fault Refusal :=
  if (s.unit u).status.busy then .refused .accessWhileBusy else x

/-- `WRL`: write `x_ILEN`, at most `x_ICAP` (rules R32, R220, U5). -/
def writeLength (c : Caps) (u : UnitId) (data : Nat) (s : State) : Host.Outcome State Fault Refusal :=
  if c.icap u < data then .refused .lengthAboveCapacity
  else .next (s.setUnit u { s.unit u with ilen := data })

/-- A register write (rule R29): `x_CTRL` is the START event (R30, R103); `x_STATUS` and `x_OLEN` ignore it. -/
def regWrite (c : Caps) (u : UnitId) (reg data : Nat) (s : State) : Host.Outcome State Fault Refusal :=
  match reg with
  | 0 => runDecoded (decodeWord (.control u) data) s
  | 1 => whenIdle u s (.next s)
  | 2 => whenIdle u s (writeLength c u data s)
  | 3 => whenIdle u s (.next s)
  | _ => .refused .noSuchRegister

/-- `RDS`: read `x_STATUS`, allowed in every state, without side effect (rule R195). -/
def readStatus (u : UnitId) (s : State) : State := s.reply (.status u (statusWord (s.unit u).status))

/-- A register read (rules R29, R217). -/
def regRead (u : UnitId) (reg : Nat) (s : State) : Host.Outcome State Fault Refusal :=
  match reg with
  | 0 => whenIdle u s (.next (s.reply (.control u 0#1)))
  | 1 => .next (readStatus u s)
  | 2 => whenIdle u s (.next (s.reply (.ilen u (s.unit u).ilen)))
  | 3 => whenIdle u s (.next (s.reply (.olen u (s.unit u).olen)))
  | _ => .refused .noSuchRegister

/-- `WRB`: write a cell of `x_IBUF` (rules R62, R75, R217). -/
def bufWrite (c : Caps) (u : UnitId) (a : Nat) (v : Byte) (s : State) : Host.Outcome State Fault Refusal :=
  whenIdle u s <|
    if c.icap u ≤ a then .refused .noSuchCell
    else .next (s.setUnit u { s.unit u with ibuf := (s.unit u).ibuf.write a v })

/-- What a read of a written output cell returns: its value inside the result, any value outside it (rules R81, R219, U7). -/
def readResultCell (u : UnitId) (a : Nat) (v : Byte) (s : State) : State :=
  if a < (s.unit u).olen ∧ (s.unit u).status.err = none then s.reply (.cell u a v)
  else (s.reply (.cell u a (Config.freeByte s.tick))).drawn

/-- `RDB`: read a cell of `x_OBUF`, once an operation has completed (rules R78, R217, R219). -/
def bufRead (c : Caps) (u : UnitId) (a : Nat) (s : State) : Host.Outcome State Fault Refusal :=
  whenIdle u s <|
    if (s.unit u).status.done = false then .refused .noResult
    else if c.ocap u ≤ a then .refused .noSuchCell
    else
      match (s.unit u).obuf.read a with
      | some v => .next (readResultCell u a v s)
      | none => .refused .cellNeverWritten

/-- The reset of the block, both units at once (rules R210 to R212): registers and cells as rule R41 says. -/
def resetUnits (s : State) : State := (s.setUnit .enc CodecUnit.reset).setUnit .dec CodecUnit.reset

/-- `WAIT`: one `RDS`; the move stays until the value read has DONE 1 (rules R112, R195). -/
def waitDone (u : UnitId) (s : State) : State :=
  if (s.unit u).status.done then readStatus u s else (readStatus u s).setInputs (.wait u :: s.inputs)

/-- The moves that `RESULT` stands for (rule R112). -/
def resultMoves (u : UnitId) : List Input := [.regRead u 1, .regRead u 3, .resultCells u]

/-- The reads of `RESULT` after `RDS` and `RDL`: every cell of the result, none after an error (rule R112). -/
def resultCellMoves (u : UnitId) (x : CodecUnit) : List Input :=
  if x.status.err = none then (List.range x.olen).map (Input.bufRead u) else []

/-- The moves that `LOAD` stands for, from cell `a` up; the length is written last (rule R112). -/
def loadMoves (u : UnitId) (a : Nat) : List Byte → List Input
  | [] => [.regWrite u 2 a]
  | v :: vs => .bufWrite u a v :: loadMoves u (a + 1) vs

/-- The moves that the pseudo-operations `ENCODE [..]` and `DECODE ".."` stand for (rule R112). -/
def operationMoves (u : UnitId) (message : List Byte) : List Input :=
  loadMoves u 0 message ++ [.regWrite u 0 1, .wait u, .result u]

/-- One move from outside, already taken from the list of inputs. -/
def applyInput (c : Caps) (x : Input) (s : State) : Host.Outcome State Fault Refusal :=
  match x with
  | .reset => .next (resetUnits s)
  | .regWrite u reg data => regWrite c u reg data s
  | .regRead u reg => regRead u reg s
  | .bufWrite u a v => bufWrite c u a v s
  | .bufRead u a => bufRead c u a s
  | .wait u => .next (waitDone u s)
  | .result u => .next (s.setInputs (resultMoves u ++ s.inputs))
  | .resultCells u => .next (s.setInputs (resultCellMoves u (s.unit u) ++ s.inputs))
  | .operand p bs => runDecoded (decodeBytes p bs) s

/-- A turn of the host: its next move, if it has one. -/
def hostStep (c : Caps) (s : State) : Host.Outcome State Fault Refusal :=
  match s.inputs with
  | [] => .next s
  | x :: xs => applyInput c x (s.setInputs xs)

end Sys2Proof.Machine
end

