-- ==== Sys2Proof/Machine/Agents.lean ====
section
/-! DEFINITION. One step of the block with its host: which agent moves (rules R20 to R22, R197), and its move. -/

namespace Sys2Proof.Machine

/-- Whether an agent has a step: the host while a move is left, a unit exactly while its BUSY is 1 (rule R22). -/
def State.enabled (s : State) : Agent → Bool
  | .host => !s.inputs.isEmpty
  | .unit u => (s.unit u).status.busy

/-- The agents that have a step. -/
def enabledAgents (s : State) : List Agent := [.host, .unit .enc, .unit .dec].filter s.enabled

/-- The step part of one unit, by its kind (rules R160, R172). -/
def unitStep (c : Caps) (u : UnitId) (x : CodecUnit) : Host.Outcome CodecUnit Fault Refusal :=
  match u with
  | .enc => encUnitStep (c.ocap .enc) x
  | .dec => decUnitStep (c.ocap .dec) x

/-- The move of one agent. -/
def agentStep (c : Caps) (who : Agent) (s : State) : Host.Outcome State Fault Refusal :=
  match who with
  | .host => hostStep c s
  | .unit u => andThen (unitStep c u (s.unit u)) fun x => .next (s.setUnit u x)

/-- A step when the state names no next mover: one of the enabled agents, by a free choice; with none enabled the run is
over and nothing changes (rules R22, R197, R224, log entry 2). -/
def freeStep (c : Caps) (s : State) : Host.Outcome State Fault Refusal :=
  match (enabledAgents s)[Config.choice s.tick % (enabledAgents s).length]? with
  | none => .next s
  | some who => agentStep c who s.drawn

/-- One step for given capacities: the next mover that `turns` names, else a free choice. -/
def stepWith (c : Caps) (s : State) : Host.Outcome State Fault Refusal :=
  match s.turns with
  | [] => freeStep c s
  | who :: rest => agentStep c who (s.setTurns rest)

/-- An opcode-table word placed where the host's next move is taken from, with the host's turn next (log entry 7). -/
def placeWord (s : State) (nbits w : Nat) : State :=
  (s.setInputs (.operand (tablePort nbits w) (tableBytes nbits w) :: s.inputs)).setTurns (.host :: s.turns)

end Sys2Proof.Machine
end

