-- ==== Sys2Proof/Machine/Step.lean ====
section
/-! DEFINITION. One step of the machine, and where an opcode-table word is placed for it. -/

namespace Sys2Proof.Machine

/-- One step of the block with its host, for the capacities of this block (rule R6). -/
def step (s : State) : Host.Outcome State Fault Refusal := stepWith Config.caps s

/-- The state whose next step runs the operation of an opcode-table word. -/
def State.withFetchWord (s : State) (nbits w : Nat) : State := placeWord s nbits w

end Sys2Proof.Machine
end

