-- ==== Sys2Proof/Machine/Codec.lean ====
section
/-! DEFINITION. The codec as pure functions on whole sequences: `encode` (R155) and `decode` (R165). The operations of
the units are specified to agree with them (R162, R173). -/

namespace Sys2Proof.Machine

/-- `encode` of rule R155: chunks of three bytes, the last perhaps shorter, four characters each. -/
def encodeMessage : List Byte → List Byte
  | [] => []
  | [b0] => quadChars (pack1 b0)
  | [b0, b1] => quadChars (pack2 b0 b1)
  | b0 :: b1 :: b2 :: rest => quadChars (pack3 b0 b1 b2) ++ encodeMessage rest

/-- `dec` of rule R165, on a sequence whose length is a multiple of 4 (the last arm is not reached from `decodeMessage`). -/
def decodeQuads : List Byte → Result (List Byte)
  | [] => .ok []
  | c0 :: c1 :: c2 :: c3 :: rest =>
    (unpack c0 c1 c2 c3).bind fun ys =>
      if ys.length < 3 ∧ rest ≠ [] then .fail .invalidCharacter
      else (decodeQuads rest).bind fun zs => .ok (ys ++ zs)
  | _ => .fail .invalidLength

/-- `decode` of rule R165: the length check first (rule R166), then the quads. -/
def decodeMessage (cs : List Byte) : Result (List Byte) :=
  if cs.length % 4 ≠ 0 then .fail .invalidLength else decodeQuads cs

end Sys2Proof.Machine
end

