-- ==== Sys2Proof/Safety.lean ====
section
/-! DEFINITION. The terms claims are stated in: the invariant every step keeps, runs, the message and the result of a unit,
which moves leave a unit alone, and the alphabet as rule R93 lists it. -/

namespace Sys2Proof.Safety

open Sys2Proof.Machine

/-- The 64 data characters in the order of their symbol values, as the table of rule R93 lists them. -/
def alphabet : List Byte :=
  "ABCDEFGHIJKLMNOPQRSTUVWXYZabcdefghijklmnopqrstuvwxyz0123456789+/".toList.map fun c =>
    BitVec.ofNat 8 c.toNat

/-- The data character of a symbol value (rule R93). -/
def dataChar (v : Val6) : Byte := alphabet.getD v.toNat 0

/-- The message of a unit: cells `0 .. x_ILEN` of its input buffer, if all hold values (rule R60). -/
def messageOf (x : CodecUnit) : Option (List Byte) := readCells x.ibuf 0 x.ilen

/-- The result of a unit: cells `0 .. x_OLEN` of its output buffer, if all hold values (rule R60). -/
def resultOf (x : CodecUnit) : Option (List Byte) := readCells x.obuf 0 x.olen

/-- `k` steps, stopping at the first fault or refusal. -/
def run : Nat → State → Host.Outcome State Fault Refusal
  | 0, s => .next s
  | k + 1, s => andThen (step s) (run k)

/-- The state with the next `k` turns given to one unit. -/
def scheduled (u : UnitId) (k : Nat) (s : State) : State :=
  s.setTurns (List.replicate k (.unit u) ++ s.turns)

/-- A move from outside that writes no register or cell of a unit and does not reset it. -/
def spares (u : UnitId) : Input → Bool
  | .reset => false
  | .regWrite v _ _ => v != u
  | .regRead _ _ => true
  | .bufWrite v _ _ => v != u
  | .bufRead _ _ => true
  | .wait _ => true
  | .result _ => true
  | .resultCells _ => true
  | .operand p _ => p != .control u

/-- The legal combinations of `x_STATUS` (rule R33); that ERR is never `0b11` is the type's. -/
def StatusLegal (st : Status) : Prop :=
  ¬(st.busy = true ∧ st.done = true) ∧ (st.err ≠ none → st.done = true)

/-- Where the cursors of `ENC` stand between group steps (rules R26, R27, R70, R160). -/
def EncCursors (x : CodecUnit) : Prop :=
  (x.ipos % 3 = 0 ∨ x.ipos = x.n) ∧ x.opos = 4 * ((x.ipos + 2) / 3)

/-- Where the cursors of `DEC` stand between group steps (rules R26, R27, R70, R172). -/
def DecCursors (x : CodecUnit) : Prop :=
  x.ipos % 4 = 0 ∧ x.opos ≤ 3 * (x.ipos / 4)

/-- Where the cursors of a unit stand between group steps. -/
def Cursors : UnitId → CodecUnit → Prop
  | .enc, x => EncCursors x
  | .dec, x => DecCursors x

/-- The invariant of one unit, of kind `u`, under the capacities `c`. -/
structure UnitInv (c : Caps) (u : UnitId) (x : CodecUnit) : Prop where
  /-- R33. -/
  statusLegal : StatusLegal x.status
  /-- R33: `E_STATUS.ERR` is always `0b00`. -/
  encNoError : u = .enc → x.status.err = none
  /-- R32. -/
  ilenInRange : x.ilen ≤ c.icap u
  /-- R34. -/
  olenInRange : x.olen ≤ c.ocap u
  /-- R28: a copy of `x_ILEN`. -/
  nInRange : x.n ≤ c.icap u
  /-- R26: the input cursor never passes `x_N`. -/
  iposInMessage : x.ipos ≤ x.n
  /-- R26, R27, R70. -/
  cursors : Cursors u x
  /-- The buffers are in canonical form. -/
  ibufWf : Memory.wf x.ibuf
  obufWf : Memory.wf x.obuf
  /-- R60: no cell outside the buffers holds a value. -/
  ibufInSpace : ∀ cell ∈ x.ibuf, cell.1 < c.icap u
  obufInSpace : ∀ cell ∈ x.obuf, cell.1 < c.ocap u
  /-- R78, R214: the whole message of a running operation holds values. -/
  messageWritten : x.status.busy = true → (readCells x.ibuf 0 x.n).isSome
  /-- The result cells written so far hold values (R160, R172). -/
  outputWritten : x.status.busy = true → (readCells x.obuf 0 x.opos).isSome
  /-- After a completion the whole result holds values (R162, R173, R187). -/
  resultWritten : x.status.done = true → (resultOf x).isSome
  /-- R30, R34, R186: while an operation runs, before any, and after an error, the length of the result is 0. -/
  noResultLength : x.status.done = false ∨ x.status.err ≠ none → x.olen = 0

/-- The invariant of the machine: that of both units, for the capacities of this block. -/
structure Inv (s : State) : Prop where
  enc : UnitInv Config.caps .enc s.enc
  dec : UnitInv Config.caps .dec s.dec

/-- How many unit steps the operation a unit runs has still to take at most (rule R221). -/
def stepsLeft (u : UnitId) (x : CodecUnit) : Nat :=
  if x.status.busy = false then 0
  else
    match u with
    | .enc => (x.n - x.ipos + 2) / 3 + 1
    | .dec => if x.n % 4 ≠ 0 then 1 else (x.n - x.ipos) / 4 + 1

end Sys2Proof.Safety
end

