-- ==== Sys2Proof/Certificates/Slice0/Obligations.lean ====
section
/-! DEFINITION. The statements for the provers, each from the rules of spec/ its docstring names. -/

open Sys2Proof Sys2Proof.Machine Sys2Proof.Safety

/-! ## Reset and the invariant -/

/-- R41, R211: after reset both STATUS are `0b0000`, every length and cursor is 0, no cell holds a value, CTRL reads 0. -/
def Obligations.ResetLeavesTheTable : Prop :=
  ∀ u : UnitId,
    statusWord (State.reset.unit u).status = 0b0000#4 ∧
    (State.reset.unit u).ilen = 0 ∧ (State.reset.unit u).olen = 0 ∧ (State.reset.unit u).n = 0 ∧
    (State.reset.unit u).ipos = 0 ∧ (State.reset.unit u).opos = 0 ∧
    (∀ a, (State.reset.unit u).ibuf.read a = none ∧ (State.reset.unit u).obuf.read a = none) ∧
    applyInput Config.caps (.regRead u 0) State.reset = .next (State.reset.reply (.control u 0#1))

/-- The invariant holds at reset. -/
def Obligations.ResetMeetsTheInvariant : Prop := Inv State.reset

/-- The invariant (R26 to R28, R32 to R34, R60, R70, the canonical form of the buffers) is kept by every step. -/
def Obligations.StepKeepsTheInvariant : Prop :=
  ∀ s t : State, Inv s → step s = .next t → Inv t

/-- R33: the values `x_STATUS` can show after reset and after every step. -/
def Obligations.StatusTakesOnlyLegalValues : Prop :=
  let legal : State → Prop := fun s =>
    (∀ u, ¬((s.unit u).status.busy = true ∧ (s.unit u).status.done = true) ∧
      (errCode (s.unit u).status.err ≠ 0b00#2 → (s.unit u).status.done = true) ∧
      errCode (s.unit u).status.err ≠ 0b11#2) ∧
    errCode s.enc.status.err = 0b00#2 ∧
    statusWord s.enc.status ∈ [0b0000#4, 0b0001#4, 0b0010#4] ∧
    statusWord s.dec.status ∈ [0b0000#4, 0b0001#4, 0b0010#4, 0b0110#4, 0b1010#4]
  legal State.reset ∧ ∀ s t : State, Inv s → step s = .next t → legal t

/-- R6, R110 (c): every length and cursor fits in `x_LENW` bits, so computing in naturals changes no result. -/
def Obligations.LengthsFitTheirRegisters : Prop :=
  ∀ (s : State) (u : UnitId), Inv s →
    (s.unit u).ilen < 2 ^ Config.caps.lenWidth u ∧ (s.unit u).olen < 2 ^ Config.caps.lenWidth u ∧
    (s.unit u).n < 2 ^ Config.caps.lenWidth u ∧ (s.unit u).ipos < 2 ^ Config.caps.lenWidth u ∧
    (s.unit u).opos < 2 ^ Config.caps.lenWidth u

/-- R61, R63, R64: a unit never reads outside its message and never writes outside its output buffer; a step never faults. -/
def Obligations.NoStepFaults : Prop :=
  ∀ (s : State) (r : Fault), Inv s → step s ≠ .fault r

/-! ## Encodings and the step -/

/-- Every well-formed operation is read back from its word, with every operand at every value. -/
def Obligations.DecodeOfEncodeIsTheInstruction : Prop :=
  ∀ i : Instr, i.wellFormed = true → decodeBytes i.port (encode i) = .ok i

/-- What is decoded is well formed and belongs to the port; at the ports where each word has one meaning the word is the
encoder's. -/
def Obligations.DecodedWordsAreWellFormed : Prop :=
  ∀ (p : Port) (bs : List Byte) (i : Instr), decodeBytes p bs = .ok i →
    i.wellFormed = true ∧ i.port = p ∧ (p ≠ .symbol → p ≠ .triplet → encode i = bs)

/-- Words written out from R92, R95, R97 and R103 decode to the operations they stand for. -/
def Obligations.SpecWordsDecode : Prop :=
  decodeWord .symbol 0b0011001 = .ok (.s2c (.data 25)) ∧
  decodeWord .symbol 0b1000000 = .ok (.s2c .pad) ∧
  decodeWord .char 0x51 = .ok (.c2s 0x51) ∧
  decodeWord .triplet 0x350616E = .ok (.pack3 0x50 0x61 0x6E) ∧
  decodeWord .triplet 0x2656600 = .ok (.pack2 0x65 0x66) ∧
  decodeWord .triplet 0x1650000 = .ok (.pack1 0x65) ∧
  decodeWord .triplet 0x0650000 = .error .countZero ∧
  decodeWord .quad 0x54574675 = .ok (.unpack3 0x54 0x57 0x46 0x75) ∧
  decodeWord .quad 0x5457453D = .ok (.unpack2 0x54 0x57 0x45) ∧
  decodeWord .quad 0x54513D3D = .ok (.unpack1 0x54 0x51) ∧
  decodeWord (.control .enc) 1 = .ok .encode ∧
  decodeWord (.control .dec) 1 = .ok .decode

/-- A step at which the host's next move drives a decodable word is `exec` of the operation, on the state with the move
taken; with no turn named and both units idle the free choice can pick only the host. -/
def Obligations.StepRunsTheDecodedWord : Prop :=
  ∀ (s : State) (p : Port) (bs : List Byte) (i : Instr) (rest : List Input),
    decodeBytes p bs = .ok i → s.inputs = .operand p bs :: rest →
    (∀ ts, s.turns = .host :: ts → step s = exec i ((s.setTurns ts).setInputs rest)) ∧
    (s.turns = [] → s.enc.status.busy = false → s.dec.status.busy = false →
      step s = exec i (s.drawn.setInputs rest))

/-- R103: the host's write of 1 to register 0 of a unit is that unit's command. -/
def Obligations.StepRunsTheStartWrite : Prop :=
  ∀ (s : State) (rest : List Input) (ts : List Agent), s.turns = .host :: ts →
    (s.inputs = .regWrite .enc 0 1 :: rest → step s = exec .encode ((s.setTurns ts).setInputs rest)) ∧
    (s.inputs = .regWrite .dec 0 1 :: rest → step s = exec .decode ((s.setTurns ts).setInputs rest))

/-- R22, R224: an idle unit's turn changes nothing but that the turn is used; with nothing enabled a step changes nothing. -/
def Obligations.IdleAgentsChangeNothing : Prop :=
  (∀ (s : State) (u : UnitId) (ts : List Agent), s.turns = .unit u :: ts → (s.unit u).status.busy = false →
    step s = .next (s.setTurns ts)) ∧
  (∀ s : State, s.turns = [] → s.inputs = [] → s.enc.status.busy = false → s.dec.status.busy = false →
    step s = .next s)

/-! ## The leaf operations -/

/-- R93, R120: S2C gives the table's character, by the closed form of each range, and `=` for PAD; it changes nothing else. -/
def Obligations.S2CGivesTheTablesCharacter : Prop :=
  ∀ s : State,
    exec (.s2c .pad) s = .next (s.reply (.char 0x3D)) ∧
    ∀ v : Val6,
      exec (.s2c (.data v)) s = .next (s.reply (.char (dataChar v))) ∧
      (v.toNat ≤ 25 → (dataChar v).toNat = 0x41 + v.toNat) ∧
      (26 ≤ v.toNat → v.toNat ≤ 51 → (dataChar v).toNat = 0x61 + (v.toNat - 26)) ∧
      (52 ≤ v.toNat → v.toNat ≤ 61 → (dataChar v).toNat = 0x30 + (v.toNat - 52)) ∧
      (v.toNat = 62 → dataChar v = 0x2B) ∧ (v.toNat = 63 → dataChar v = 0x2F)

/-- R121, R122: C2S gives the value whose data character it is given and fails on every other cell value, `=` included. -/
def Obligations.C2SInvertsTheDataCharacters : Prop :=
  ∀ (s : State) (c : Byte),
    (∀ v : Val6, dataChar v = c → exec (.c2s c) s = .next (s.reply (.value (.ok v)))) ∧
    ((∀ v : Val6, dataChar v ≠ c) →
      exec (.c2s c) s = .next (s.reply (.value (.fail .invalidCharacter)))) ∧
    (∀ v : Val6, dataChar v ≠ padCode)

/-- R123: the two mappings are inverse on the 64 data symbols and data characters; S2C is injective; C2S fails on pad. -/
def Obligations.AlphabetMappingsAreInverse : Prop :=
  (∀ v : Val6, charToSym (symToChar (.data v)) = .ok v) ∧
  (∀ (c : Byte) (v : Val6), charToSym c = .ok v → symToChar (.data v) = c) ∧
  (∀ c : Byte, c ∈ alphabet ↔ ∃ v : Val6, symToChar (.data v) = c) ∧
  (∀ a b : Symbol, symToChar a = symToChar b → a = b) ∧
  charToSym (symToChar .pad) = .fail .invalidCharacter

/-- R131: PACK3, bit for bit, and its being a bijection between byte triples and quadruples of values. -/
def Obligations.Pack3RegroupsTwentyFourBits : Prop :=
  (∀ (s : State) (b0 b1 b2 : Byte),
    exec (.pack3 b0 b1 b2) s = .next (s.reply (.symbols
      ⟨.data (b0.extractLsb' 2 6), .data (b0.extractLsb' 0 2 ++ b1.extractLsb' 4 4),
       .data (b1.extractLsb' 0 4 ++ b2.extractLsb' 6 2), .data (b2.extractLsb' 0 6)⟩))) ∧
  (∀ b0 b1 b2 d0 d1 d2 : Byte, pack3 b0 b1 b2 = pack3 d0 d1 d2 → b0 = d0 ∧ b1 = d1 ∧ b2 = d2) ∧
  (∀ v0 v1 v2 v3 : Val6, ∃ b0 b1 b2 : Byte,
    pack3 b0 b1 b2 = ⟨.data v0, .data v1, .data v2, .data v3⟩)

/-- R132: PACK2; the low two bits of `s2` are 0 and `s3` is PAD. -/
def Obligations.Pack2ZeroFillsAndPads : Prop :=
  ∀ (s : State) (b0 b1 : Byte),
    exec (.pack2 b0 b1) s = .next (s.reply (.symbols
      ⟨.data (b0.extractLsb' 2 6), .data (b0.extractLsb' 0 2 ++ b1.extractLsb' 4 4),
       .data (b1.extractLsb' 0 4 ++ 0b00#2), .pad⟩))

/-- R133: PACK1; the low four bits of `s1` are 0 and `s2`, `s3` are PAD. -/
def Obligations.Pack1ZeroFillsAndPads : Prop :=
  ∀ (s : State) (b0 : Byte),
    exec (.pack1 b0) s = .next (s.reply (.symbols
      ⟨.data (b0.extractLsb' 2 6), .data (b0.extractLsb' 0 2 ++ 0b0000#4), .pad, .pad⟩))

/-- R141: UNPACK3 gives three bytes, or fails when one of its characters is no data character. -/
def Obligations.Unpack3GivesThreeBytes : Prop :=
  ∀ (s : State) (c0 c1 c2 c3 : Byte),
    (∀ v0 v1 v2 v3 : Val6, c0 = dataChar v0 → c1 = dataChar v1 → c2 = dataChar v2 → c3 = dataChar v3 →
      exec (.unpack3 c0 c1 c2 c3) s = .next (s.reply (.bytes (.ok
        [v0.extractLsb' 0 6 ++ v1.extractLsb' 4 2, v1.extractLsb' 0 4 ++ v2.extractLsb' 2 4,
         v2.extractLsb' 0 2 ++ v3.extractLsb' 0 6])))) ∧
    (c0 ∉ alphabet ∨ c1 ∉ alphabet ∨ c2 ∉ alphabet ∨ c3 ∉ alphabet →
      exec (.unpack3 c0 c1 c2 c3) s = .next (s.reply (.bytes (.fail .invalidCharacter))))

/-- R142: UNPACK2 gives two bytes, or fails when one of its three characters is no data character. -/
def Obligations.Unpack2GivesTwoBytes : Prop :=
  ∀ (s : State) (c0 c1 c2 : Byte),
    (∀ v0 v1 v2 : Val6, c0 = dataChar v0 → c1 = dataChar v1 → c2 = dataChar v2 →
      exec (.unpack2 c0 c1 c2) s = .next (s.reply (.bytes (.ok
        [v0.extractLsb' 0 6 ++ v1.extractLsb' 4 2, v1.extractLsb' 0 4 ++ v2.extractLsb' 2 4])))) ∧
    (c0 ∉ alphabet ∨ c1 ∉ alphabet ∨ c2 ∉ alphabet →
      exec (.unpack2 c0 c1 c2) s = .next (s.reply (.bytes (.fail .invalidCharacter))))

/-- R143: UNPACK1 gives one byte, or fails when one of its two characters is no data character. -/
def Obligations.Unpack1GivesOneByte : Prop :=
  ∀ (s : State) (c0 c1 : Byte),
    (∀ v0 v1 : Val6, c0 = dataChar v0 → c1 = dataChar v1 →
      exec (.unpack1 c0 c1) s = .next (s.reply (.bytes (.ok
        [v0.extractLsb' 0 6 ++ v1.extractLsb' 4 2])))) ∧
    (c0 ∉ alphabet ∨ c1 ∉ alphabet →
      exec (.unpack1 c0 c1) s = .next (s.reply (.bytes (.fail .invalidCharacter))))

/-- R106: the unpacker's bytes are the document's shift formulas, truncated to a byte. -/
def Obligations.BytesAreTheShiftFormulas : Prop :=
  ∀ v0 v1 v2 v3 : Val6,
    byte0Of v0 v1 = (v0.setWidth 8 <<< 2) ||| (v1.setWidth 8 >>> 4) ∧
    byte1Of v1 v2 = (v1.setWidth 8 <<< 4) ||| (v2.setWidth 8 >>> 2) ∧
    byte2Of v2 v3 = (v2.setWidth 8 <<< 6) ||| v3.setWidth 8

/-- R102, R144: whatever form a quad selects, `=` in `c0` or `c1`, or in `c2` without `c3`, makes it fail. -/
def Obligations.MisplacedPadFails : Prop :=
  ∀ (s : State) (c0 c1 c2 c3 : Byte),
    c0 = padCode ∨ c1 = padCode ∨ (c2 = padCode ∧ c3 ≠ padCode) →
      exec (unpackForm c0 c1 c2 c3) s = .next (s.reply (.bytes (.fail .invalidCharacter)))

/-- R146: the bits a padded quad does not reference do not matter. -/
def Obligations.UnreferencedBitsAreIgnored : Prop :=
  (∀ (c0 c1 d1 : Byte) (v w : Val6), charToSym c1 = .ok v → charToSym d1 = .ok w →
    v.extractLsb' 4 2 = w.extractLsb' 4 2 → unpack1 c0 c1 = unpack1 c0 d1) ∧
  (∀ (c0 c1 c2 d2 : Byte) (v w : Val6), charToSym c2 = .ok v → charToSym d2 = .ok w →
    v.extractLsb' 2 4 = w.extractLsb' 2 4 → unpack2 c0 c1 c2 = unpack2 c0 c1 d2)

/-- R147: unpacking the characters of a packed group gives the group back. -/
def Obligations.UnpackInvertsPack : Prop :=
  ∀ (m : List Byte) (q : SymbolQuad), packSeq m = some q →
    unpack (symToChar q.s0) (symToChar q.s1) (symToChar q.s2) (symToChar q.s3) = .ok m

/-- R25 and the "State read or written: none" of R120 to R143: a leaf operation changes nothing but the reply it hands out. -/
def Obligations.LeafOperationsOnlyReply : Prop :=
  ∀ (i : Instr) (s : State), i ≠ .encode → i ≠ .decode →
    ∃ r : Reply, exec i s = .next (s.reply r) ∧ ∀ s' : State, exec i s' = .next (s'.reply r)

/-! ## The commands and the unit steps -/

/-- R30, R78, R214: with the message written, as R214 (b) asks, START makes all its writes and nothing else; with a cell of the message
not written it is refused, whatever the length (that the refusal stands at START is the model's, log entry 19); a write of 0 has no
effect in any state. -/
def Obligations.StartIsOneIndivisibleStep : Prop :=
  (∀ (s : State) (m : List Byte), s.enc.status.busy = false → messageOf s.enc = some m →
    exec .encode s = .next { s with enc := { s.enc with
      n := s.enc.ilen, ipos := 0, opos := 0, olen := 0, status := ⟨true, false, none⟩ } }) ∧
  (∀ (s : State) (m : List Byte), s.dec.status.busy = false → messageOf s.dec = some m →
    exec .decode s = .next { s with dec := { s.dec with
      n := s.dec.ilen, ipos := 0, opos := 0, olen := 0, status := ⟨true, false, none⟩ } }) ∧
  (∀ (s : State) (u : UnitId) (a : Nat), (s.unit u).status.busy = false → a < (s.unit u).ilen →
    (s.unit u).ibuf.read a = none → exec (commandOf u) s = .refused .messageNotWritten) ∧
  (∀ (s : State) (u : UnitId), applyInput Config.caps (.regWrite u 0 0) s = .next s)

/-- R218: START while busy is refused. -/
def Obligations.StartWhileBusyIsRefused : Prop :=
  ∀ s : State,
    (s.enc.status.busy = true → exec .encode s = .refused .startWhileBusy) ∧
    (s.dec.status.busy = true → exec .decode s = .refused .startWhileBusy)

/-- R160: a group step of `ENC` writes the four characters of the next one to three bytes and advances both cursors. -/
def Obligations.EncoderGroupStep : Prop :=
  ∀ (s : State) (ts : List Agent) (bs : List Byte), s.turns = .unit .enc :: ts →
    s.enc.status.busy = true → s.enc.ipos < s.enc.n →
    readCells s.enc.ibuf s.enc.ipos (min 3 (s.enc.n - s.enc.ipos)) = some bs →
    s.enc.opos + 4 ≤ Config.caps.ocap .enc →
    (encodeMessage bs).length = 4 ∧
    step s = .next { s with
      turns := ts
      enc := { s.enc with
        obuf := writeCells s.enc.obuf s.enc.opos (encodeMessage bs)
        ipos := s.enc.ipos + min 3 (s.enc.n - s.enc.ipos)
        opos := s.enc.opos + 4 } }

/-- R160: the completion step of `ENC`. -/
def Obligations.EncoderCompletionStep : Prop :=
  ∀ (s : State) (ts : List Agent), s.turns = .unit .enc :: ts →
    s.enc.status.busy = true → s.enc.n ≤ s.enc.ipos →
    step s = .next { s with
      turns := ts
      enc := { s.enc with
        olen := s.enc.opos
        status := { s.enc.status with busy := false, done := true } } }

/-- R172: a group step of `DEC` on a quad that unpacks, full or final. -/
def Obligations.DecoderGroupStep : Prop :=
  ∀ (s : State) (ts : List Agent) (c0 c1 c2 c3 : Byte) (ys : List Byte), s.turns = .unit .dec :: ts →
    s.dec.status.busy = true → s.dec.n % 4 = 0 → s.dec.ipos + 4 ≤ s.dec.n →
    readCells s.dec.ibuf s.dec.ipos 4 = some [c0, c1, c2, c3] → unpack c0 c1 c2 c3 = .ok ys →
    (ys.length = 3 ∨ s.dec.ipos + 4 = s.dec.n) → s.dec.opos + ys.length ≤ Config.caps.ocap .dec →
    step s = .next { s with
      turns := ts
      dec := { s.dec with
        obuf := writeCells s.dec.obuf s.dec.opos ys
        ipos := s.dec.ipos + 4
        opos := s.dec.opos + ys.length } }

/-- R166, R167, R168, R182, R186: the three ways a unit step of `DEC` ends in an error completion, which writes OLEN and STATUS
and nothing else. -/
def Obligations.DecoderErrorCompletion : Prop :=
  ∀ (s : State) (ts : List Agent), s.turns = .unit .dec :: ts → s.dec.status.busy = true →
    let failed : Err → State := fun e => { s with
      turns := ts, dec := { s.dec with olen := 0, status := ⟨false, true, some e⟩ } }
    (s.dec.n % 4 ≠ 0 → step s = .next (failed .invalidLength)) ∧
    (∀ c0 c1 c2 c3 : Byte, s.dec.n % 4 = 0 → s.dec.ipos + 4 ≤ s.dec.n →
      readCells s.dec.ibuf s.dec.ipos 4 = some [c0, c1, c2, c3] →
      (unpack c0 c1 c2 c3 = .fail .invalidCharacter ∨ (c3 = padCode ∧ s.dec.ipos + 4 ≠ s.dec.n)) →
      step s = .next (failed .invalidCharacter))

/-- R172: the completion step of `DEC`. -/
def Obligations.DecoderCompletionStep : Prop :=
  ∀ (s : State) (ts : List Agent), s.turns = .unit .dec :: ts →
    s.dec.status.busy = true → s.dec.n % 4 = 0 → s.dec.n ≤ s.dec.ipos →
    step s = .next { s with
      turns := ts
      dec := { s.dec with
        olen := s.dec.opos
        status := { s.dec.status with busy := false, done := true } } }

/-- R21, R64, R77 (c): what a step of `ENC` leaves alone: the other unit, what stands around, its length, latched length and
input buffer, and every output cell outside the run it stores at `E_OPOS`. -/
def Obligations.EncoderStepFrame : Prop :=
  ∀ (s t : State) (ts : List Agent), s.turns = .unit .enc :: ts → step s = .next t →
    t.dec = s.dec ∧ t.inputs = s.inputs ∧ t.turns = ts ∧ t.tick = s.tick ∧ t.replies = s.replies ∧
    t.enc.ilen = s.enc.ilen ∧ t.enc.n = s.enc.n ∧ t.enc.ibuf = s.enc.ibuf ∧
    t.enc.status.err = s.enc.status.err ∧
    (t.enc.opos = s.enc.opos ∨ t.enc.opos = s.enc.opos + 4) ∧
    ∀ a, a < s.enc.opos ∨ t.enc.opos ≤ a → t.enc.obuf.read a = s.enc.obuf.read a

/-- R21, R64, R77 (c), R186: what a step of `DEC` leaves alone, as for `ENC`. -/
def Obligations.DecoderStepFrame : Prop :=
  ∀ (s t : State) (ts : List Agent), s.turns = .unit .dec :: ts → step s = .next t →
    t.enc = s.enc ∧ t.inputs = s.inputs ∧ t.turns = ts ∧ t.tick = s.tick ∧ t.replies = s.replies ∧
    t.dec.ilen = s.dec.ilen ∧ t.dec.n = s.dec.n ∧ t.dec.ibuf = s.dec.ibuf ∧
    s.dec.opos ≤ t.dec.opos ∧ t.dec.opos ≤ s.dec.opos + 3 ∧
    ∀ a, a < s.dec.opos ∨ t.dec.opos ≤ a → t.dec.obuf.read a = s.dec.obuf.read a

/-- R30 and R160, R172 "Operands": what ENCODE and DECODE leave alone at START. -/
def Obligations.CommandFrame : Prop :=
  ∀ s t : State,
    (exec .encode s = .next t →
      t.dec = s.dec ∧ t.inputs = s.inputs ∧ t.turns = s.turns ∧ t.tick = s.tick ∧ t.replies = s.replies ∧
      t.enc.ilen = s.enc.ilen ∧
      ∀ a, t.enc.ibuf.read a = s.enc.ibuf.read a ∧ t.enc.obuf.read a = s.enc.obuf.read a) ∧
    (exec .decode s = .next t →
      t.enc = s.enc ∧ t.inputs = s.inputs ∧ t.turns = s.turns ∧ t.tick = s.tick ∧ t.replies = s.replies ∧
      t.dec.ilen = s.dec.ilen ∧
      ∀ a, t.dec.ibuf.read a = s.dec.ibuf.read a ∧ t.dec.obuf.read a = s.dec.obuf.read a)

/-- R21: a step of one unit neither changes nor depends on the other unit. -/
def Obligations.UnitsShareNothing : Prop :=
  ∀ (s t : State) (u v : UnitId) (x : CodecUnit) (ts : List Agent), v ≠ u → s.turns = .unit u :: ts →
    step s = .next t → t.unit v = s.unit v ∧ step (s.setUnit v x) = .next (t.setUnit v x)

/-- R221: a busy unit always has a step, and what is left of its operation shrinks with it. The invariant says that its message is
written (R78, R214). -/
def Obligations.BusyUnitMakesProgress : Prop :=
  ∀ (s : State) (u : UnitId) (ts : List Agent), Inv s → (s.unit u).status.busy = true → s.turns = .unit u :: ts →
    ∃ t, step s = .next t ∧ stepsLeft u (t.unit u) < stepsLeft u (s.unit u)

/-- R162, R221: ENCODE, given `ceil(N / 3) + 1` turns of `ENC`, ends with STATUS `0b0010`, OLEN `4 * ceil(N / 3)` and the function
`encode` of the message in the output buffer; the message and the other unit are as they were. -/
def Obligations.EncodeEndsWithItsResult : Prop :=
  ∀ (s : State) (m : List Byte), Inv s → s.enc.status.busy = false → messageOf s.enc = some m →
    ∃ t0 t, exec .encode s = .next t0 ∧
      run ((m.length + 2) / 3 + 1) (scheduled .enc ((m.length + 2) / 3 + 1) t0) = .next t ∧
      statusWord t.enc.status = 0b0010#4 ∧ t.enc.olen = 4 * ((m.length + 2) / 3) ∧
      resultOf t.enc = some (encodeMessage m) ∧ t.enc.ibuf = s.enc.ibuf ∧ t.enc.ilen = s.enc.ilen ∧
      t.dec = s.dec ∧ t.turns = s.turns

/-- R173, R221: DECODE, given `N / 4 + 1` turns of `DEC`, ends with the result of the function `decode`, or with the code of its
error and OLEN 0; the message and the other unit are as they were. -/
def Obligations.DecodeEndsWithItsResult : Prop :=
  ∀ (s : State) (cs : List Byte), Inv s → s.dec.status.busy = false → messageOf s.dec = some cs →
    ∃ t0 t, exec .decode s = .next t0 ∧
      run (cs.length / 4 + 1) (scheduled .dec (cs.length / 4 + 1) t0) = .next t ∧
      (∀ ys, decodeMessage cs = .ok ys →
        statusWord t.dec.status = 0b0010#4 ∧ t.dec.olen = ys.length ∧ resultOf t.dec = some ys) ∧
      (decodeMessage cs = .fail .invalidLength → statusWord t.dec.status = 0b0110#4 ∧ t.dec.olen = 0) ∧
      (decodeMessage cs = .fail .invalidCharacter → statusWord t.dec.status = 0b1010#4 ∧ t.dec.olen = 0) ∧
      t.dec.ibuf = s.dec.ibuf ∧ t.dec.ilen = s.dec.ilen ∧ t.enc = s.enc ∧ t.turns = s.turns

/-- R23, R162, R197: whatever the other agents do meanwhile and in whatever order, as long as no move from outside writes to
`ENC` or resets the block, an ENCODE that has completed has left the function `encode` of its message. -/
def Obligations.EncodeAgreesUnderAnySchedule : Prop :=
  ∀ (s t0 t : State) (m : List Byte) (k : Nat), Inv s → s.enc.status.busy = false →
    messageOf s.enc = some m → (∀ i ∈ s.inputs, spares .enc i = true) →
    exec .encode s = .next t0 → run k t0 = .next t → t.enc.status.busy = false →
    statusWord t.enc.status = 0b0010#4 ∧ t.enc.olen = 4 * ((m.length + 2) / 3) ∧
    resultOf t.enc = some (encodeMessage m) ∧ messageOf t.enc = some m

/-- R23, R173, R197: as for ENCODE, a DECODE that has completed has left the result, or the error, of the function `decode`. -/
def Obligations.DecodeAgreesUnderAnySchedule : Prop :=
  ∀ (s t0 t : State) (cs : List Byte) (k : Nat), Inv s → s.dec.status.busy = false →
    messageOf s.dec = some cs → (∀ i ∈ s.inputs, spares .dec i = true) →
    exec .decode s = .next t0 → run k t0 = .next t → t.dec.status.busy = false →
    messageOf t.dec = some cs ∧
    match decodeMessage cs with
    | .ok ys => statusWord t.dec.status = 0b0010#4 ∧ t.dec.olen = ys.length ∧ resultOf t.dec = some ys
    | .fail .invalidLength => statusWord t.dec.status = 0b0110#4 ∧ t.dec.olen = 0
    | .fail .invalidCharacter => statusWord t.dec.status = 0b1010#4 ∧ t.dec.olen = 0

/-! ## The functions -/

/-- R169: decoding an encoded message gives it back. -/
def Obligations.DecodeInvertsEncode : Prop :=
  ∀ m : List Byte, decodeMessage (encodeMessage m) = .ok m

/-- R157: the length law. -/
def Obligations.EncodedLength : Prop :=
  ∀ m : List Byte, (encodeMessage m).length = 4 * ((m.length + 2) / 3)

/-- R159: the padding law: 0, 2 or 1 pads by the length mod 3, at the very end, and only data characters before them. -/
def Obligations.PadsStandAtTheEnd : Prop :=
  ∀ m : List Byte, ∃ front : List Byte,
    encodeMessage m =
      front ++ List.replicate (if m.length % 3 = 1 then 2 else if m.length % 3 = 2 then 1 else 0) padCode ∧
    ∀ c ∈ front, c ∈ alphabet

/-- R161: every character of an encoded message is one of the 65 alphabet characters. -/
def Obligations.EncodedCharactersAreInTheAlphabet : Prop :=
  ∀ (m : List Byte) (c : Byte), c ∈ encodeMessage m → c ∈ alphabet ∨ c = padCode

/-- R170: the length of a decoded message, and that it fits the decoder's output buffer. -/
def Obligations.DecodedLength : Prop :=
  ∀ cs ys : List Byte, decodeMessage cs = .ok ys →
    ys.length + cs.count padCode = 3 * (cs.length / 4) ∧ cs.count padCode ≤ 2 ∧
    (cs.length ≤ Config.caps.icap .dec → ys.length ≤ Config.caps.ocap .dec)

/-- R166, R171: the domain of success of `decode`, and which error it gives elsewhere. -/
def Obligations.DecodeSucceedsExactlyOnWellFormed : Prop :=
  ∀ cs : List Byte,
    ((∃ ys, decodeMessage cs = .ok ys) ↔
      cs.length % 4 = 0 ∧ ∃ (front : List Byte) (p : Nat), p ≤ 2 ∧
        cs = front ++ List.replicate p padCode ∧ ∀ c ∈ front, c ∈ alphabet) ∧
    (decodeMessage cs = .fail .invalidLength ↔ cs.length % 4 ≠ 0) ∧
    (cs.length % 4 = 0 → (∀ ys, decodeMessage cs ≠ .ok ys) → decodeMessage cs = .fail .invalidCharacter)

/-! ## Buffers, registers and the host -/

/-- R64: a MemWrite inside the buffer sets its cells in order and changes no other; the canonical form is kept. -/
def Obligations.MemWriteSetsItsRunOnly : Prop :=
  ∀ (cap : Nat) (m : Memory) (a : Nat) (bs : List Byte), a + bs.length ≤ cap →
    ∃ m', memWrite cap m a bs = .next m' ∧
      (∀ k, k < bs.length → m'.read (a + k) = bs[k]?) ∧
      (∀ a', a' < a ∨ a + bs.length ≤ a' → m'.read a' = m.read a') ∧
      (Memory.wf m → Memory.wf m')

/-- R63, R78: a MemRead gives the cells in order, lowest address first, and is refused when one of them holds no value. -/
def Obligations.MemReadGivesItsCells : Prop :=
  ∀ (limit : Nat) (m : Memory) (a n : Nat), a + n ≤ limit →
    (∀ bs, memRead limit m a n = .next bs ↔ bs.length = n ∧ ∀ k, k < n → m.read (a + k) = bs[k]?) ∧
    ((∃ k, k < n ∧ m.read (a + k) = none) → memRead limit m a n = .refused .cellNeverWritten)

/-- R31, R180: where the fields of `x_STATUS` stand and what the error codes are. -/
def Obligations.StatusFieldLayout : Prop :=
  (∀ st : Status, (statusWord st).getLsbD 0 = st.busy ∧ (statusWord st).getLsbD 1 = st.done ∧
    (statusWord st).extractLsb' 2 2 = errCode st.err) ∧
  errCode none = 0b00#2 ∧ errCode (some .invalidLength) = 0b01#2 ∧ errCode (some .invalidCharacter) = 0b10#2

/-- R195: STATUS is read in every state, busy or not, and nothing else happens. -/
def Obligations.StatusReadInEveryState : Prop :=
  ∀ (s : State) (u : UnitId),
    applyInput Config.caps (.regRead u 1) s = .next (s.reply (.status u (statusWord (s.unit u).status)))

/-- R29, R217: reads of the control register and the lengths of an idle unit, and writes of its read-only registers, which have no
effect. That a datum with bits beyond the register's width has no effect there either, where R29 asks for zero upper bits, is the
model's choice (DEDUCED, log entry 18). -/
def Obligations.IdleRegisterAccesses : Prop :=
  ∀ (s : State) (u : UnitId) (d : Nat), (s.unit u).status.busy = false →
    applyInput Config.caps (.regRead u 0) s = .next (s.reply (.control u 0#1)) ∧
    applyInput Config.caps (.regRead u 2) s = .next (s.reply (.ilen u (s.unit u).ilen)) ∧
    applyInput Config.caps (.regRead u 3) s = .next (s.reply (.olen u (s.unit u).olen)) ∧
    applyInput Config.caps (.regWrite u 1 d) s = .next s ∧
    applyInput Config.caps (.regWrite u 3 d) s = .next s

/-- R32, R220: the host writes any length up to the capacity of an idle unit; above it the write is refused. -/
def Obligations.LengthWriteUpToCapacity : Prop :=
  ∀ (s : State) (u : UnitId) (d : Nat), (s.unit u).status.busy = false →
    (d ≤ Config.caps.icap u →
      applyInput Config.caps (.regWrite u 2 d) s = .next (s.setUnit u { s.unit u with ilen := d })) ∧
    (Config.caps.icap u < d →
      applyInput Config.caps (.regWrite u 2 d) s = .refused .lengthAboveCapacity)

/-- R60, R62, R217: the host writes one cell of an idle unit's input buffer and nothing else. -/
def Obligations.CellWriteChangesOneCell : Prop :=
  ∀ (s : State) (u : UnitId) (a : Nat) (v : Byte), (s.unit u).status.busy = false →
    (a < Config.caps.icap u → ∃ m, applyInput Config.caps (.bufWrite u a v) s =
        .next (s.setUnit u { s.unit u with ibuf := m }) ∧
      m.read a = some v ∧ ∀ a', a' ≠ a → m.read a' = (s.unit u).ibuf.read a') ∧
    (Config.caps.icap u ≤ a → applyInput Config.caps (.bufWrite u a v) s = .refused .noSuchCell)

/-- R219: after a success every cell of the result can be read, and the read gives what the cell holds. -/
def Obligations.ResultCellsAreReadable : Prop :=
  ∀ (s : State) (u : UnitId) (a : Nat), Inv s → (s.unit u).status.done = true →
    (s.unit u).status.err = none → a < (s.unit u).olen →
    ∃ v, (s.unit u).obuf.read a = some v ∧
      applyInput Config.caps (.bufRead u a) s = .next (s.reply (.cell u a v))

/-- R78, R81, U6, U7: outside the result a written cell reads as the free value (log entry 6; the statement holds for every
value of it) and a cell nothing has written is refused. -/
def Obligations.CellsOutsideTheResult : Prop :=
  ∀ (s : State) (u : UnitId) (a : Nat), (s.unit u).status.busy = false → (s.unit u).status.done = true →
    a < Config.caps.ocap u →
    (∀ v, (s.unit u).obuf.read a = some v → (s.unit u).olen ≤ a ∨ (s.unit u).status.err ≠ none →
      applyInput Config.caps (.bufRead u a) s =
        .next (s.reply (.cell u a (Config.freeByte s.tick))).drawn) ∧
    ((s.unit u).obuf.read a = none →
      applyInput Config.caps (.bufRead u a) s = .refused .cellNeverWritten)

/-- R216, R217: while a unit is busy every host access that R216 lists is refused. -/
def Obligations.BusyUnitRefusesTheHost : Prop :=
  ∀ (s : State) (u : UnitId) (a : Nat) (v : Byte), (s.unit u).status.busy = true →
    applyInput Config.caps (.regWrite u 2 a) s = .refused .accessWhileBusy ∧
    applyInput Config.caps (.bufWrite u a v) s = .refused .accessWhileBusy ∧
    applyInput Config.caps (.regWrite u 0 1) s = .refused .startWhileBusy ∧
    applyInput Config.caps (.regRead u 3) s = .refused .accessWhileBusy ∧
    applyInput Config.caps (.bufRead u a) s = .refused .accessWhileBusy

/-- R210 to R212: reset acts on both units at once, busy or not, and leaves no cell with a value. -/
def Obligations.ResetAbandonsEverything : Prop :=
  ∀ s : State, ∃ t, applyInput Config.caps .reset s = .next t ∧
    (∀ u, statusWord (t.unit u).status = 0b0000#4 ∧ (t.unit u).ilen = 0 ∧ (t.unit u).olen = 0 ∧
      (t.unit u).n = 0 ∧ (t.unit u).ipos = 0 ∧ (t.unit u).opos = 0 ∧
      ∀ a, (t.unit u).ibuf.read a = none ∧ (t.unit u).obuf.read a = none) ∧
    t.inputs = s.inputs ∧ t.turns = s.turns ∧ t.tick = s.tick ∧ t.replies = s.replies

/-- R112: WAIT reads STATUS and stays until the value read has DONE 1; RESULT stands for RDS, RDL and then one RDB for each cell
of the result, none after an error. -/
def Obligations.PseudoMovesExpand : Prop :=
  ∀ (s : State) (u : UnitId),
    let seen := s.reply (.status u (statusWord (s.unit u).status))
    ((s.unit u).status.done = true → applyInput Config.caps (.wait u) s = .next seen) ∧
    ((s.unit u).status.done = false →
      applyInput Config.caps (.wait u) s = .next (seen.setInputs (.wait u :: s.inputs))) ∧
    applyInput Config.caps (.result u) s =
      .next (s.setInputs (.regRead u 1 :: .regRead u 3 :: .resultCells u :: s.inputs)) ∧
    (∃ rs, applyInput Config.caps (.resultCells u) s = .next (s.setInputs (rs ++ s.inputs)) ∧
      ((s.unit u).status.err = none → rs.length = (s.unit u).olen ∧
        ∀ a, a < (s.unit u).olen → rs[a]? = some (.bufRead u a)) ∧
      ((s.unit u).status.err ≠ none → rs = []))
end

