-- ==== Sys2Proof/Laws/Bits.lean ====
section
/-! SUPPORT. The bits of the concatenations the formats use, at the widths they are used at (rules R95, R97, R105, R106). -/

namespace Sys2Proof.Machine

theorem getLsbD_append_2_4 (x : BitVec 2) (y : BitVec 4) (i : Nat) :
    BitVec.getLsbD (w := 6) (x ++ y) i = if i < 4 then y.getLsbD i else x.getLsbD (i - 4) :=
  (BitVec.getLsbD_append (x := x) (y := y) (i := i)).trans (by cases decide (i < 4) <;> simp)

theorem getLsbD_append_4_2 (x : BitVec 4) (y : BitVec 2) (i : Nat) :
    BitVec.getLsbD (w := 6) (x ++ y) i = if i < 2 then y.getLsbD i else x.getLsbD (i - 2) :=
  (BitVec.getLsbD_append (x := x) (y := y) (i := i)).trans (by cases decide (i < 2) <;> simp)

theorem getLsbD_append_6_2 (x : BitVec 6) (y : BitVec 2) (i : Nat) :
    BitVec.getLsbD (w := 8) (x ++ y) i = if i < 2 then y.getLsbD i else x.getLsbD (i - 2) :=
  (BitVec.getLsbD_append (x := x) (y := y) (i := i)).trans (by cases decide (i < 2) <;> simp)

theorem getLsbD_append_4_4 (x : BitVec 4) (y : BitVec 4) (i : Nat) :
    BitVec.getLsbD (w := 8) (x ++ y) i = if i < 4 then y.getLsbD i else x.getLsbD (i - 4) :=
  (BitVec.getLsbD_append (x := x) (y := y) (i := i)).trans (by cases decide (i < 4) <;> simp)

theorem getLsbD_append_2_6 (x : BitVec 2) (y : BitVec 6) (i : Nat) :
    BitVec.getLsbD (w := 8) (x ++ y) i = if i < 6 then y.getLsbD i else x.getLsbD (i - 6) :=
  (BitVec.getLsbD_append (x := x) (y := y) (i := i)).trans (by cases decide (i < 6) <;> simp)

/-- The bits of the triplet word: byte0 at 23:16, byte1 at 15:8, byte2 at 7:0 (rules R67, R95). -/
theorem tripletOf_getLsbD (b0 b1 b2 : Byte) (i : Nat) :
    (tripletOf b0 b1 b2).getLsbD i =
      if i < 8 then b2.getLsbD i else if i < 16 then b1.getLsbD (i - 8) else b0.getLsbD (i - 16) := by
  refine (BitVec.getLsbD_append (x := b0 ++ b1) (y := b2) (i := i)).trans ?_
  rw [BitVec.getLsbD_append]
  by_cases h : i < 8
  · simp [h]
  · have : (i - 8 < 8) = (i < 16) := by
      apply propext
      omega
    simp [h, this, show i - 8 - 8 = i - 16 by omega]

/-- The bits of field `k` of the triplet word (rule R105). -/
theorem fieldOf_getLsbD (t : Triplet) (k i : Nat) :
    (fieldOf t k).getLsbD i = (decide (i < 6) && t.getLsbD (18 - 6 * k + i)) := by
  simp [fieldOf]

theorem byte0Of_getLsbD (v0 v1 : Val6) (i : Nat) :
    (byte0Of v0 v1).getLsbD i = if i < 2 then v1.getLsbD (4 + i) else v0.getLsbD (i - 2) := by
  refine (getLsbD_append_6_2 _ _ i).trans ?_
  split <;> simp [*]

theorem byte1Of_getLsbD (v1 v2 : Val6) (i : Nat) :
    (byte1Of v1 v2).getLsbD i = if i < 4 then v2.getLsbD (2 + i) else (decide (i - 4 < 4) && v1.getLsbD (i - 4)) := by
  refine (getLsbD_append_4_4 _ _ i).trans ?_
  split <;> simp [*]

theorem byte2Of_getLsbD (v2 v3 : Val6) (i : Nat) :
    (byte2Of v2 v3).getLsbD i = if i < 6 then v3.getLsbD i else (decide (i - 6 < 2) && v2.getLsbD (i - 6)) := by
  refine (getLsbD_append_2_6 _ _ i).trans ?_
  split <;> simp [*]

theorem append_byte_toNat {n : Nat} (x : BitVec n) (b : Byte) : (x ++ b).toNat = x.toNat * 2 ^ 8 + b.toNat := by
  rw [BitVec.toNat_append, ← Nat.shiftLeft_add_eq_or_of_lt b.isLt, Nat.shiftLeft_eq]

/-- The triplet operand as a number (rule R95). -/
theorem tripletWord_eq (n : BitVec 2) (b0 b1 b2 : Byte) :
    tripletWord n b0 b1 b2 = n.toNat * 2 ^ 24 + b0.toNat * 2 ^ 16 + b1.toNat * 2 ^ 8 + b2.toNat := by
  refine (append_byte_toNat (n ++ b0 ++ b1) b2).trans ?_
  rw [append_byte_toNat, append_byte_toNat]
  omega

/-- The quad word as a number (rule R97). -/
theorem quadWord_eq (c0 c1 c2 c3 : Byte) :
    quadWord c0 c1 c2 c3 = c0.toNat * 2 ^ 24 + c1.toNat * 2 ^ 16 + c2.toNat * 2 ^ 8 + c3.toNat := by
  refine (append_byte_toNat (c0 ++ c1 ++ c2) c3).trans ?_
  rw [append_byte_toNat, append_byte_toNat]
  omega

theorem bytesOfWord_length (n w : Nat) : (bytesOfWord n w).length = n := by
  induction n generalizing w with
  | zero => rfl
  | succ n ih => simp [bytesOfWord, ih]

/-- The bytes of a number that fits in them give the number back. -/
theorem wordOfBytes_bytesOfWord (n w : Nat) (h : w < 2 ^ (8 * n)) : wordOfBytes (bytesOfWord n w) = w := by
  induction n generalizing w with
  | zero =>
    have : w = 0 := by simpa using h
    simp [bytesOfWord, wordOfBytes, this]
  | succ n ih =>
    have h' : w < 2 ^ (8 * n) * 256 := by
      rwa [show 8 * (n + 1) = 8 * n + 8 by omega, Nat.pow_add] at h
    simp only [bytesOfWord, wordOfBytes, BitVec.toNat_ofNat, ih (w / 256) (by omega)]
    omega

/-- The number of some bytes gives the bytes back. -/
theorem bytesOfWord_wordOfBytes (bs : List Byte) : bytesOfWord bs.length (wordOfBytes bs) = bs := by
  induction bs with
  | nil => rfl
  | cons b bs ih =>
    have := b.isLt
    rw [List.length_cons, bytesOfWord, wordOfBytes,
      show (b.toNat + 256 * wordOfBytes bs) / 256 = wordOfBytes bs by omega, ih]
    congr 1
    apply BitVec.eq_of_toNat_eq
    simp
    omega

end Sys2Proof.Machine
end

