-- ==== Sys2Proof/Laws/Codec.lean ====
section
/-! SUPPORT. The alphabet mapper, the packer and the unpacker, said once: what each function gives, for the proofs about
operations to cite instead of unfolding the tables and the bit slices. -/

namespace Sys2Proof.Machine

open Sys2Proof.Safety

/-- The ranges of rule R120 are the table of rule R93. -/
theorem symToChar_data : ∀ v : Val6, symToChar (.data v) = dataChar v := by decide

theorem symToChar_pad : symToChar .pad = padCode := rfl

/-- A data character reads back as its value. -/
theorem charToSym_dataChar : ∀ v : Val6, charToSym (dataChar v) = .ok v := by decide

/-- Outside the alphabet there is one failure (rule R121). -/
theorem charToSym_outside : ∀ c : Byte, c ∉ alphabet → charToSym c = .fail .invalidCharacter := by decide

theorem dataChar_of_mem : ∀ c : Byte, c ∈ alphabet → ∃ v, dataChar v = c := by decide

theorem dataChar_mem : ∀ v : Val6, dataChar v ∈ alphabet := by decide

theorem dataChar_ne_pad : ∀ v : Val6, dataChar v ≠ padCode := by decide

theorem pad_not_mem : padCode ∉ alphabet := by decide

/-- Every character is outside the alphabet and fails, or inside it and has a value. -/
theorem charToSym_cases (c : Byte) :
    (c ∉ alphabet ∧ charToSym c = .fail .invalidCharacter) ∨ (c ∈ alphabet ∧ ∃ v, charToSym c = .ok v) := by
  by_cases h : c ∈ alphabet
  · obtain ⟨v, rfl⟩ := dataChar_of_mem c h
    exact .inr ⟨h, v, charToSym_dataChar v⟩
  · exact .inl ⟨h, charToSym_outside c h⟩

/-- A bit vector of 6 bits is known by its bits. -/
theorem val6_ext {x y : Val6} (h : ∀ i : Fin 6, x.getLsbD i = y.getLsbD i) : x = y :=
  BitVec.eq_of_getLsbD_eq fun i hi => h ⟨i, hi⟩

/-- A bit vector of 8 bits is known by its bits. -/
theorem byte_ext {x y : Byte} (h : ∀ i : Fin 8, x.getLsbD i = y.getLsbD i) : x = y :=
  BitVec.eq_of_getLsbD_eq fun i hi => h ⟨i, hi⟩

section Fields

variable (b0 b1 b2 : Byte)

/-- The four fields of the triplet word as slices of its bytes (rule R105). -/
theorem field0 : fieldOf (tripletOf b0 b1 b2) 0 = b0.extractLsb' 2 6 := by
  apply val6_ext
  simp only [fieldOf_getLsbD, tripletOf_getLsbD]
  intro i
  fin_cases i <;> simp

theorem field1 : fieldOf (tripletOf b0 b1 b2) 1 = b0.extractLsb' 0 2 ++ b1.extractLsb' 4 4 := by
  apply val6_ext
  simp only [getLsbD_append_2_4]
  simp only [fieldOf_getLsbD, tripletOf_getLsbD]
  intro i
  fin_cases i <;> simp

theorem field2 : fieldOf (tripletOf b0 b1 b2) 2 = b1.extractLsb' 0 4 ++ b2.extractLsb' 6 2 := by
  apply val6_ext
  simp only [getLsbD_append_4_2]
  simp only [fieldOf_getLsbD, tripletOf_getLsbD]
  intro i
  fin_cases i <;> simp

theorem field3 : fieldOf (tripletOf b0 b1 b2) 3 = b2.extractLsb' 0 6 := by
  apply val6_ext
  simp only [fieldOf_getLsbD, tripletOf_getLsbD]
  intro i
  fin_cases i <;> simp

/-- The bytes of rule R106 put the fields of rule R105 together again. -/
theorem byte0_fields : byte0Of (b0.extractLsb' 2 6) (b0.extractLsb' 0 2 ++ b1.extractLsb' 4 4) = b0 := by
  apply byte_ext
  simp only [byte0Of_getLsbD, getLsbD_append_2_4]
  intro i
  fin_cases i <;> simp

theorem byte1_fields :
    byte1Of (b0.extractLsb' 0 2 ++ b1.extractLsb' 4 4) (b1.extractLsb' 0 4 ++ b2.extractLsb' 6 2) = b1 := by
  apply byte_ext
  simp only [byte1Of_getLsbD, getLsbD_append_2_4, getLsbD_append_4_2]
  intro i
  fin_cases i <;> simp

theorem byte2_fields : byte2Of (b1.extractLsb' 0 4 ++ b2.extractLsb' 6 2) (b2.extractLsb' 0 6) = b2 := by
  apply byte_ext
  simp only [byte2Of_getLsbD, getLsbD_append_4_2]
  intro i
  fin_cases i <;> simp

end Fields

/-- How many bytes a quad unpacks to (rules R102, R140). -/
theorem unpack_length {c0 c1 c2 c3 : Byte} {ys : List Byte} (h : unpack c0 c1 c2 c3 = .ok ys) :
    ys.length = if c2 = padCode ∧ c3 = padCode then 1 else if c3 = padCode then 2 else 3 := by
  unfold unpack unpack1 unpack2 unpack3 Result.bind at h
  repeat' split at h
  all_goals simp_all
  all_goals
    subst h
    simp

theorem unpack_length_le {c0 c1 c2 c3 : Byte} {ys : List Byte} (h : unpack c0 c1 c2 c3 = .ok ys) : ys.length ≤ 3 := by
  have := unpack_length h
  split_ifs at this <;> omega

/-- The only failure of the unpacker (rule R144). -/
theorem unpack_fail {c0 c1 c2 c3 : Byte} {e : Err} (h : unpack c0 c1 c2 c3 = .fail e) : e = .invalidCharacter := by
  unfold unpack unpack1 unpack2 unpack3 at h
  rcases charToSym_cases c0 with ⟨-, h0⟩ | ⟨-, _, h0⟩ <;> rcases charToSym_cases c1 with ⟨-, h1⟩ | ⟨-, _, h1⟩ <;>
    rcases charToSym_cases c2 with ⟨-, h2⟩ | ⟨-, _, h2⟩ <;> rcases charToSym_cases c3 with ⟨-, h3⟩ | ⟨-, _, h3⟩ <;>
    simp [h0, h1, h2, h3, Result.bind] at h <;> (try split at h) <;> (try split at h) <;> simp_all

/-- When the unpacker succeeds (rules R102, R140 to R144). -/
theorem unpack_ok_iff {c0 c1 c2 c3 : Byte} :
    (∃ ys, unpack c0 c1 c2 c3 = .ok ys) ↔ c0 ∈ alphabet ∧ c1 ∈ alphabet ∧
      ((c2 = padCode ∧ c3 = padCode) ∨ (c2 ∈ alphabet ∧ c3 = padCode) ∨ (c2 ∈ alphabet ∧ c3 ∈ alphabet)) := by
  have hp := pad_not_mem
  unfold unpack unpack1 unpack2 unpack3
  rcases charToSym_cases c0 with ⟨k0, h0⟩ | ⟨k0, _, h0⟩ <;> rcases charToSym_cases c1 with ⟨k1, h1⟩ | ⟨k1, _, h1⟩ <;>
    rcases charToSym_cases c2 with ⟨k2, h2⟩ | ⟨k2, _, h2⟩ <;>
    rcases charToSym_cases c3 with ⟨k3, h3⟩ | ⟨k3, _, h3⟩ <;>
    by_cases g2 : c2 = padCode <;> by_cases g3 : c3 = padCode <;> simp_all [Result.bind]

theorem quadChars_length (q : SymbolQuad) : (quadChars q).length = 4 := rfl

/-- `encode` of one more full chunk (rule R155). -/
theorem encodeMessage_chunk (b0 b1 b2 : Byte) (rest : List Byte) :
    encodeMessage (b0 :: b1 :: b2 :: rest) = quadChars (pack3 b0 b1 b2) ++ encodeMessage rest := by rw [encodeMessage]

/-- `dec` of one more quad (rule R165). -/
theorem decodeQuads_quad (c0 c1 c2 c3 : Byte) (rest : List Byte) :
    decodeQuads (c0 :: c1 :: c2 :: c3 :: rest) = (unpack c0 c1 c2 c3).bind fun ys =>
      if ys.length < 3 ∧ rest ≠ [] then .fail .invalidCharacter
      else (decodeQuads rest).bind fun zs => .ok (ys ++ zs) := by rw [decodeQuads]

/-- On one to three bytes the packer and `encode` agree (rules R130, R155). -/
theorem packSeq_encode {bs : List Byte} (h0 : 0 < bs.length) (h3 : bs.length ≤ 3) :
    ∃ q, packSeq bs = some q ∧ encodeMessage bs = quadChars q := by
  match bs with
  | [] => simp at h0
  | [a] => exact ⟨_, rfl, rfl⟩
  | [a, b] => exact ⟨_, rfl, rfl⟩
  | [a, b, c] => exact ⟨_, rfl, by simp [encodeMessage]⟩
  | _ :: _ :: _ :: _ :: _ =>
    simp at h3
    omega

end Sys2Proof.Machine
end

