-- ==== Sys2Proof/Laws/Memory.lean ====
section
/-! SUPPORT. The laws of the buffers: read after write, canonical form, sequences of cells, MemRead and MemWrite. -/

namespace Sys2Proof.Machine

@[simp] theorem read_nil (a : Nat) : Memory.read [] a = none := rfl

theorem read_cons (k : Nat) (b : Byte) (m : Memory) (a : Nat) :
    Memory.read ((k, b) :: m) a = if a = k then some b else Memory.read m a := rfl

/-- What a write makes every cell hold. -/
theorem read_write (m : Memory) (a a' : Nat) (v : Byte) :
    Memory.read (Memory.write m a v) a' = if a' = a then some v else Memory.read m a' := by
  induction m with
  | nil => simp [Memory.write, read_cons]
  | cons p m ih =>
    obtain ⟨k, b⟩ := p
    simp only [Memory.write]
    split
    · simp only [read_cons]
    · split
      · subst_vars
        simp only [read_cons]
        split <;> rfl
      · simp only [read_cons, ih]
        by_cases h1 : a' = k
        · subst h1
          simp [show a' ≠ a by omega]
        · simp [h1]

@[simp] theorem read_write_same (m : Memory) (a : Nat) (v : Byte) :
    Memory.read (Memory.write m a v) a = some v := by simp [read_write]

theorem read_write_other {a a' : Nat} (m : Memory) (v : Byte) (h : a' ≠ a) :
    Memory.read (Memory.write m a v) a' = Memory.read m a' := by simp [read_write, h]

/-- A written memory lists the written cell and old ones only. -/
theorem mem_write {m : Memory} {a : Nat} {v : Byte} {cell : Host.Cell} (h : cell ∈ Memory.write m a v) :
    cell = (a, v) ∨ cell ∈ m := by
  induction m with
  | nil => simpa [Memory.write] using h
  | cons p m ih =>
    obtain ⟨k, b⟩ := p
    simp only [Memory.write] at h
    split at h
    · simpa using h
    · split at h
      · simp only [List.mem_cons] at h ⊢
        tauto
      · simp only [List.mem_cons] at h ⊢
        rcases h with h | h
        · exact .inr (.inl h)
        · rcases ih h with h | h
          · exact .inl h
          · exact .inr (.inr h)

/-- A write keeps the canonical form. -/
theorem write_wf {m : Memory} (hm : Memory.wf m) (a : Nat) (v : Byte) : Memory.wf (Memory.write m a v) := by
  induction m with
  | nil => simp [Memory.write]
  | cons p m ih =>
    obtain ⟨k, b⟩ := p
    obtain ⟨hk, hm'⟩ := List.pairwise_cons.mp hm
    simp only [Memory.write]
    split
    · next h =>
      refine List.pairwise_cons.mpr ⟨fun c hc => ?_, hm⟩
      rcases List.mem_cons.mp hc with rfl | hc
      · exact h
      · exact Nat.lt_trans h (hk c hc)
    · split
      · next h =>
        subst h
        exact List.pairwise_cons.mpr ⟨hk, hm'⟩
      · refine List.pairwise_cons.mpr ⟨fun c hc => ?_, ih hm'⟩
        rcases mem_write hc with rfl | hc
        · show k < a
          omega
        · exact hk c hc

@[simp] theorem writeCells_nil (m : Memory) (a : Nat) : writeCells m a [] = m := rfl
@[simp] theorem writeCells_cons (m : Memory) (a : Nat) (b : Byte) (bs : List Byte) :
    writeCells m a (b :: bs) = writeCells (Memory.write m a b) (a + 1) bs := rfl

theorem writeCells_wf {m : Memory} (hm : Memory.wf m) (a : Nat) (bs : List Byte) :
    Memory.wf (writeCells m a bs) := by
  induction bs generalizing m a with
  | nil => exact hm
  | cons b bs ih => exact ih (write_wf hm a b) (a + 1)

theorem mem_writeCells {m : Memory} {a : Nat} {bs : List Byte} {cell : Host.Cell}
    (h : cell ∈ writeCells m a bs) : (a ≤ cell.1 ∧ cell.1 < a + bs.length) ∨ cell ∈ m := by
  induction bs generalizing m a with
  | nil => exact .inr h
  | cons b bs ih =>
    rcases ih h with ⟨h1, h2⟩ | h
    · left
      simp only [List.length_cons]
      omega
    · rcases mem_write h with rfl | h
      · left
        simp
      · exact .inr h

/-- MemWrite changes no cell outside its run (rule R64). -/
theorem read_writeCells_outside (m : Memory) (a a' : Nat) (bs : List Byte) (h : a' < a ∨ a + bs.length ≤ a') :
    Memory.read (writeCells m a bs) a' = Memory.read m a' := by
  induction bs generalizing m a with
  | nil => rfl
  | cons b bs ih =>
    simp only [List.length_cons] at h
    rw [writeCells_cons, ih _ _ (by omega), read_write_other _ _ (by omega)]

/-- MemWrite sets cell `a + k` to element `k` (rule R64). -/
theorem read_writeCells_inside (m : Memory) (a k : Nat) (bs : List Byte) (h : k < bs.length) :
    Memory.read (writeCells m a bs) (a + k) = bs[k]? := by
  induction bs generalizing m a k with
  | nil => simp at h
  | cons b bs ih =>
    rw [writeCells_cons]
    cases k with
    | zero =>
      rw [Nat.add_zero, read_writeCells_outside _ _ _ _ (by omega)]
      simp
    | succ k =>
      rw [show a + (k + 1) = a + 1 + k by omega, ih _ _ _ (by simpa using h)]
      simp

@[simp] theorem readCells_zero (m : Memory) (a : Nat) : readCells m a 0 = some [] := rfl

theorem readCells_succ (m : Memory) (a n : Nat) :
    readCells m a (n + 1) = (Memory.read m a).bind fun b => (readCells m (a + 1) n).map (b :: ·) := by
  simp only [readCells]
  cases Memory.read m a <;> cases readCells m (a + 1) n <;> rfl

/-- A run of cells is two runs, one after the other. -/
theorem readCells_add (m : Memory) (a j k : Nat) :
    readCells m a (j + k) =
      (readCells m a j).bind fun bs => (readCells m (a + j) k).map (bs ++ ·) := by
  induction j generalizing a with
  | zero => simp
  | succ j ih =>
    rw [show j + 1 + k = (j + k) + 1 by omega, readCells_succ, readCells_succ, ih,
      show a + 1 + j = a + (j + 1) by omega]
    cases Memory.read m a <;> cases readCells m (a + 1) j <;> cases readCells m (a + (j + 1)) k <;> simp

theorem readCells_length {m : Memory} {a n : Nat} {bs : List Byte} (h : readCells m a n = some bs) :
    bs.length = n := by
  induction n generalizing a bs with
  | zero => simp_all
  | succ n ih =>
    rw [readCells_succ] at h
    cases h1 : Memory.read m a <;> cases h2 : readCells m (a + 1) n <;> simp [h1, h2] at h
    subst h
    simpa using ih h2

/-- Two buffers that agree on a run of cells read the same there. -/
theorem readCells_congr {m m' : Memory} {a n : Nat}
    (h : ∀ k, a ≤ k → k < a + n → Memory.read m k = Memory.read m' k) : readCells m a n = readCells m' a n := by
  induction n generalizing a with
  | zero => rfl
  | succ n ih =>
    rw [readCells_succ, readCells_succ, h a (Nat.le_refl a) (by omega),
      ih fun k h1 h2 => h k (by omega) (by omega)]

/-- Reading back a written run gives what was written. -/
theorem readCells_writeCells_same (m : Memory) (a : Nat) (bs : List Byte) :
    readCells (writeCells m a bs) a bs.length = some bs := by
  induction bs generalizing m a with
  | nil => rfl
  | cons b bs ih =>
    rw [List.length_cons, readCells_succ, writeCells_cons, ih,
      read_writeCells_outside _ _ _ _ (by omega)]
    simp

/-- Cells before a written run read as before. -/
theorem readCells_writeCells_before (m : Memory) (a b n : Nat) (bs : List Byte) (h : a + n ≤ b) :
    readCells (writeCells m b bs) a n = readCells m a n :=
  readCells_congr fun k _ h2 => read_writeCells_outside _ _ _ _ (by omega)

/-- A run written after a run that holds values extends it. -/
theorem readCells_extend (m : Memory) (k : Nat) (bs cs : List Byte) (h : readCells m 0 k = some bs) :
    readCells (writeCells m k cs) 0 (k + cs.length) = some (bs ++ cs) := by
  rw [readCells_add, readCells_writeCells_before _ _ _ _ _ (by omega), h]
  simp [readCells_writeCells_same]

/-- A run inside a run that holds values is its part of them. -/
theorem readCells_sub {m : Memory} {n a k : Nat} {bs : List Byte} (h : readCells m 0 n = some bs) (hk : a + k ≤ n) :
    readCells m a k = some ((bs.drop a).take k) := by
  have e : n = a + (k + (n - (a + k))) := by omega
  rw [e, readCells_add, Option.bind_eq_some_iff] at h
  obtain ⟨p, hp, h⟩ := h
  rw [readCells_add, Option.map_eq_some_iff] at h
  obtain ⟨q, hq, rfl⟩ := h
  obtain ⟨r, hr, hq⟩ := Option.bind_eq_some_iff.mp hq
  obtain ⟨w, hw, rfl⟩ := Option.map_eq_some_iff.mp hq
  have := readCells_length hp
  have := readCells_length hr
  rw [Nat.zero_add] at hr
  rw [hr]
  subst_vars
  simp

/-- A run holds exactly the values its cells hold. -/
theorem readCells_eq_some {m : Memory} {a n : Nat} {bs : List Byte} :
    readCells m a n = some bs ↔ bs.length = n ∧ ∀ k, k < n → Memory.read m (a + k) = bs[k]? := by
  induction n generalizing a bs with
  | zero => cases bs <;> simp
  | succ n ih =>
    rw [readCells_succ, Option.bind_eq_some_iff]
    constructor
    · rintro ⟨b, hb, h⟩
      obtain ⟨cs, hcs, rfl⟩ := Option.map_eq_some_iff.mp h
      obtain ⟨hl, h⟩ := ih.mp hcs
      refine ⟨by simp [hl], fun k hk => ?_⟩
      cases k with
      | zero => simpa using hb
      | succ k =>
        rw [show a + (k + 1) = a + 1 + k by omega, h k (by omega)]
        simp
    · rintro ⟨hl, h⟩
      cases bs with
      | nil => simp at hl
      | cons b bs =>
        have h' : ∀ k, k < n → Memory.read m (a + 1 + k) = bs[k]? := fun k hk => by
          rw [show a + 1 + k = a + (k + 1) by omega, h (k + 1) (by omega)]
          simp
        refine ⟨b, by simpa using h 0 (by omega), ?_⟩
        rw [ih.mpr ⟨by simpa using hl, h'⟩]
        rfl

theorem andThen_eq_next {α β : Type} {x : Host.Outcome α Fault Refusal} {f : α → Host.Outcome β Fault Refusal}
    {b : β} : andThen x f = .next b ↔ ∃ a, x = .next a ∧ f a = .next b := by
  cases x <;> simp [andThen]

theorem andThen_eq_fault {α β : Type} {x : Host.Outcome α Fault Refusal} {f : α → Host.Outcome β Fault Refusal}
    {r : Fault} : andThen x f = .fault r ↔ x = .fault r ∨ ∃ a, x = .next a ∧ f a = .fault r := by
  cases x <;> simp [andThen]

@[simp] theorem andThen_next {α β : Type} (a : α) (f : α → Host.Outcome β Fault Refusal) :
    andThen (.next a) f = f a := rfl

/-- All that MemRead does when it answers (rule R63). -/
theorem memRead_eq_next {limit a n : Nat} {m : Memory} {bs : List Byte} :
    memRead limit m a n = .next bs ↔ a + n ≤ limit ∧ readCells m a n = some bs := by
  unfold memRead
  split
  · simp
    omega
  · cases readCells m a n <;> simp
    omega

/-- All that MemWrite does when it answers (rule R64). -/
theorem memWrite_eq_next {cap a : Nat} {m m' : Memory} {bs : List Byte} :
    memWrite cap m a bs = .next m' ↔ a + bs.length ≤ cap ∧ m' = writeCells m a bs := by
  unfold memWrite
  split
  · simp
    omega
  · simp only [Host.Outcome.next.injEq]
    constructor
    · rintro rfl
      exact ⟨by omega, rfl⟩
    · rintro ⟨-, rfl⟩
      rfl

end Sys2Proof.Machine
end

