-- ==== Sys2Proof/Laws/PerInstr.lean ====
section
/-! SUPPORT. Per operation: its word has the fixed bits of its row of the opcode table and no bit beyond its format. -/

namespace Sys2Proof.Laws.TableRow

open Sys2Proof Sys2Proof.Machine

/-- The mask of an operation's row in the opcode table. -/
def mask : Instr → Nat
  | .s2c _ => 0
  | .c2s _ => 0
  | .pack3 _ _ _ => 0x3000000
  | .pack2 _ _ => 0x30000FF
  | .pack1 _ => 0x300FFFF
  | .unpack3 _ _ _ _ => 0
  | .unpack2 _ _ _ => 0xFF
  | .unpack1 _ _ => 0xFFFF
  | .encode => 1
  | .decode => 1

/-- The match of an operation's row in the opcode table. -/
def fixed : Instr → Nat
  | .s2c _ => 0
  | .c2s _ => 0
  | .pack3 _ _ _ => 0x3000000
  | .pack2 _ _ => 0x2000000
  | .pack1 _ => 0x1000000
  | .unpack3 _ _ _ _ => 0
  | .unpack2 _ _ _ => 0x3D
  | .unpack1 _ _ => 0x3D3D
  | .encode => 1
  | .decode => 1

/-- The word of an operation fits its format and matches its row. -/
def Statement (i : Instr) : Prop :=
  encodeWord i < 2 ^ i.port.width ∧ encodeWord i &&& mask i = fixed i

theorem mod_256 (w b : Nat) (hw : w % 256 = b) : w &&& 0xFF = b := by
  rw [show 0xFF = 2 ^ 8 - 1 from rfl, Nat.and_two_pow_sub_one_eq_mod]
  exact hw

theorem mod_65536 (w b : Nat) (hw : w % 65536 = b) : w &&& 0xFFFF = b := by
  rw [show 0xFFFF = 2 ^ 16 - 1 from rfl, Nat.and_two_pow_sub_one_eq_mod]
  exact hw

/-- The count bits of a packer word (rule R95), with the absent lanes below them. -/
theorem count_and (w n low j : Nat) (hn : w / 2 ^ 24 = n) (h4 : n < 4) (hj : j ≤ 24) (hl : w % 2 ^ j = low) :
    w &&& (3 * 2 ^ 24 + (2 ^ j - 1)) = n * 2 ^ 24 + low := by
  have hlow : low < 2 ^ j := hl ▸ Nat.mod_lt _ (Nat.two_pow_pos j)
  have hj24 : 2 ^ j ≤ 2 ^ 24 := Nat.pow_le_pow_right (by decide) hj
  apply Nat.eq_of_testBit_eq
  intro i
  rw [Nat.testBit_and, Nat.mul_comm 3, Nat.mul_comm n,
    Nat.testBit_two_pow_mul_add _ (Nat.lt_of_lt_of_le (Nat.sub_one_lt (Nat.two_pow_pos j).ne') hj24),
    Nat.testBit_two_pow_mul_add _ (Nat.lt_of_lt_of_le hlow hj24)]
  by_cases h : i < 24
  · simp only [h, if_true, Nat.testBit_two_pow_sub_one, ← hl, Nat.testBit_mod_two_pow]
    cases w.testBit i <;> simp
  · simp only [h, if_false]
    rw [← hn, Nat.testBit_div_two_pow, show i - 24 + 24 = i by omega]
    by_cases h2 : i - 24 < 2
    · have : Nat.testBit 3 (i - 24) = true := by
        rcases (by omega : i - 24 = 0 ∨ i - 24 = 1) with h | h <;> rw [h] <;> rfl
      rw [this, Bool.and_true]
    · have : w.testBit i = false := by
        apply Nat.testBit_lt_two_pow
        calc w < 2 ^ 26 := by omega
          _ ≤ 2 ^ i := Nat.pow_le_pow_right (by decide) (by omega)
      rw [this, Bool.false_and]

theorem s2c (sym : Symbol) : Statement (.s2c sym) :=
  ⟨(wiresOfSymbol sym).isLt, Nat.and_zero _⟩

theorem c2s (c : Byte) : Statement (.c2s c) :=
  ⟨c.isLt, Nat.and_zero _⟩

theorem pack3 (b0 b1 b2 : Byte) : Statement (.pack3 b0 b1 b2) := by
  have h0 := b0.isLt
  have h1 := b1.isLt
  have h2 := b2.isLt
  have e : encodeWord (.pack3 b0 b1 b2) = 3 * 2 ^ 24 + b0.toNat * 2 ^ 16 + b1.toNat * 2 ^ 8 + b2.toNat :=
    tripletWord_eq 3 b0 b1 b2
  refine ⟨?_, ?_⟩
  · show encodeWord (.pack3 b0 b1 b2) < 2 ^ 26
    omega
  · exact count_and _ 3 0 0 (by omega) (by decide) (by decide) (by omega)

theorem pack2 (b0 b1 : Byte) : Statement (.pack2 b0 b1) := by
  have h0 := b0.isLt
  have h1 := b1.isLt
  have e : encodeWord (.pack2 b0 b1) = 2 * 2 ^ 24 + b0.toNat * 2 ^ 16 + b1.toNat * 2 ^ 8 + 0 :=
    tripletWord_eq 2 b0 b1 0
  refine ⟨?_, ?_⟩
  · show encodeWord (.pack2 b0 b1) < 2 ^ 26
    omega
  · exact count_and _ 2 0 8 (by omega) (by decide) (by decide) (by omega)

theorem pack1 (b0 : Byte) : Statement (.pack1 b0) := by
  have h0 := b0.isLt
  have e : encodeWord (.pack1 b0) = 1 * 2 ^ 24 + b0.toNat * 2 ^ 16 + 0 * 2 ^ 8 + 0 :=
    tripletWord_eq 1 b0 0 0
  refine ⟨?_, ?_⟩
  · show encodeWord (.pack1 b0) < 2 ^ 26
    omega
  · exact count_and _ 1 0 16 (by omega) (by decide) (by decide) (by omega)

theorem quadWord_lt (c0 c1 c2 c3 : Byte) : quadWord c0 c1 c2 c3 < 2 ^ 32 := BitVec.isLt _

theorem unpack3 (c0 c1 c2 c3 : Byte) : Statement (.unpack3 c0 c1 c2 c3) :=
  ⟨quadWord_lt c0 c1 c2 c3, Nat.and_zero _⟩

theorem unpack2 (c0 c1 c2 : Byte) : Statement (.unpack2 c0 c1 c2) := by
  refine ⟨quadWord_lt c0 c1 c2 padCode, ?_⟩
  have e : encodeWord (.unpack2 c0 c1 c2) = c0.toNat * 2 ^ 24 + c1.toNat * 2 ^ 16 + c2.toNat * 2 ^ 8 + 0x3D :=
    quadWord_eq c0 c1 c2 padCode
  exact mod_256 _ 0x3D (by omega)

theorem unpack1 (c0 c1 : Byte) : Statement (.unpack1 c0 c1) := by
  refine ⟨quadWord_lt c0 c1 padCode padCode, ?_⟩
  have e : encodeWord (.unpack1 c0 c1) = c0.toNat * 2 ^ 24 + c1.toNat * 2 ^ 16 + 0x3D * 2 ^ 8 + 0x3D :=
    quadWord_eq c0 c1 padCode padCode
  exact mod_65536 _ 0x3D3D (by omega)

theorem encode : Statement .encode := by
  unfold Statement
  decide

theorem decode : Statement .decode := by
  unfold Statement
  decide

end Sys2Proof.Laws.TableRow
end

