-- ==== Sys2Proof/Laws/State.lean ====
section
/-! SUPPORT. One lemma per field per update of the state and of a unit. -/

namespace Sys2Proof.Machine

section StateUpdates

variable (s : State) (x : CodecUnit) (r : Reply) (xs : List Input) (ts : List Agent) (u : UnitId)

@[simp] theorem setUnit_enc_enc : (s.setUnit .enc x).enc = x := rfl
@[simp] theorem setUnit_enc_dec : (s.setUnit .enc x).dec = s.dec := rfl
@[simp] theorem setUnit_dec_enc : (s.setUnit .dec x).enc = s.enc := rfl
@[simp] theorem setUnit_dec_dec : (s.setUnit .dec x).dec = x := rfl
@[simp] theorem setUnit_inputs : (s.setUnit u x).inputs = s.inputs := by cases u <;> rfl
@[simp] theorem setUnit_turns : (s.setUnit u x).turns = s.turns := by cases u <;> rfl
@[simp] theorem setUnit_tick : (s.setUnit u x).tick = s.tick := by cases u <;> rfl
@[simp] theorem setUnit_replies : (s.setUnit u x).replies = s.replies := by cases u <;> rfl

@[simp] theorem reply_enc : (s.reply r).enc = s.enc := rfl
@[simp] theorem reply_dec : (s.reply r).dec = s.dec := rfl
@[simp] theorem reply_inputs : (s.reply r).inputs = s.inputs := rfl
@[simp] theorem reply_turns : (s.reply r).turns = s.turns := rfl
@[simp] theorem reply_tick : (s.reply r).tick = s.tick := rfl
@[simp] theorem reply_replies : (s.reply r).replies = r :: s.replies := rfl

@[simp] theorem setInputs_enc : (s.setInputs xs).enc = s.enc := rfl
@[simp] theorem setInputs_dec : (s.setInputs xs).dec = s.dec := rfl
@[simp] theorem setInputs_inputs : (s.setInputs xs).inputs = xs := rfl
@[simp] theorem setInputs_turns : (s.setInputs xs).turns = s.turns := rfl
@[simp] theorem setInputs_tick : (s.setInputs xs).tick = s.tick := rfl
@[simp] theorem setInputs_replies : (s.setInputs xs).replies = s.replies := rfl

@[simp] theorem setTurns_enc : (s.setTurns ts).enc = s.enc := rfl
@[simp] theorem setTurns_dec : (s.setTurns ts).dec = s.dec := rfl
@[simp] theorem setTurns_inputs : (s.setTurns ts).inputs = s.inputs := rfl
@[simp] theorem setTurns_turns : (s.setTurns ts).turns = ts := rfl
@[simp] theorem setTurns_tick : (s.setTurns ts).tick = s.tick := rfl
@[simp] theorem setTurns_replies : (s.setTurns ts).replies = s.replies := rfl

@[simp] theorem drawn_enc : s.drawn.enc = s.enc := rfl
@[simp] theorem drawn_dec : s.drawn.dec = s.dec := rfl
@[simp] theorem drawn_inputs : s.drawn.inputs = s.inputs := rfl
@[simp] theorem drawn_turns : s.drawn.turns = s.turns := rfl
@[simp] theorem drawn_tick : s.drawn.tick = s.tick + 1 := rfl
@[simp] theorem drawn_replies : s.drawn.replies = s.replies := rfl

@[simp] theorem unit_enc : s.unit .enc = s.enc := rfl
@[simp] theorem unit_dec : s.unit .dec = s.dec := rfl
@[simp] theorem unit_setUnit_same : (s.setUnit u x).unit u = x := by cases u <;> rfl
@[simp] theorem unit_reply : (s.reply r).unit u = s.unit u := by cases u <;> rfl
@[simp] theorem unit_setInputs : (s.setInputs xs).unit u = s.unit u := by cases u <;> rfl
@[simp] theorem unit_setTurns : (s.setTurns ts).unit u = s.unit u := by cases u <;> rfl
@[simp] theorem unit_drawn : s.drawn.unit u = s.unit u := by cases u <;> rfl

/-- The other unit is not touched (rule R21). -/
theorem unit_setUnit_other {u v : UnitId} (h : v ≠ u) : (s.setUnit u x).unit v = s.unit v := by
  cases u <;> cases v <;> first | rfl | exact absurd rfl h

@[simp] theorem setUnit_self : s.setUnit u (s.unit u) = s := by cases u <;> rfl

end StateUpdates

section UnitUpdates

variable (x : CodecUnit) (e : Err) (m : Memory) (j k : Nat)

@[simp] theorem atStart_status : x.atStart.status = ⟨true, false, none⟩ := rfl
@[simp] theorem atStart_ilen : x.atStart.ilen = x.ilen := rfl
@[simp] theorem atStart_olen : x.atStart.olen = 0 := rfl
@[simp] theorem atStart_n : x.atStart.n = x.ilen := rfl
@[simp] theorem atStart_ipos : x.atStart.ipos = 0 := rfl
@[simp] theorem atStart_opos : x.atStart.opos = 0 := rfl
@[simp] theorem atStart_ibuf : x.atStart.ibuf = x.ibuf := rfl
@[simp] theorem atStart_obuf : x.atStart.obuf = x.obuf := rfl

@[simp] theorem atSuccess_status : x.atSuccess.status = ⟨false, true, x.status.err⟩ := rfl
@[simp] theorem atSuccess_ilen : x.atSuccess.ilen = x.ilen := rfl
@[simp] theorem atSuccess_olen : x.atSuccess.olen = x.opos := rfl
@[simp] theorem atSuccess_n : x.atSuccess.n = x.n := rfl
@[simp] theorem atSuccess_ipos : x.atSuccess.ipos = x.ipos := rfl
@[simp] theorem atSuccess_opos : x.atSuccess.opos = x.opos := rfl
@[simp] theorem atSuccess_ibuf : x.atSuccess.ibuf = x.ibuf := rfl
@[simp] theorem atSuccess_obuf : x.atSuccess.obuf = x.obuf := rfl

@[simp] theorem atError_status : (x.atError e).status = ⟨false, true, some e⟩ := rfl
@[simp] theorem atError_ilen : (x.atError e).ilen = x.ilen := rfl
@[simp] theorem atError_olen : (x.atError e).olen = 0 := rfl
@[simp] theorem atError_n : (x.atError e).n = x.n := rfl
@[simp] theorem atError_ipos : (x.atError e).ipos = x.ipos := rfl
@[simp] theorem atError_opos : (x.atError e).opos = x.opos := rfl
@[simp] theorem atError_ibuf : (x.atError e).ibuf = x.ibuf := rfl
@[simp] theorem atError_obuf : (x.atError e).obuf = x.obuf := rfl

@[simp] theorem afterGroup_status : (x.afterGroup m j k).status = x.status := rfl
@[simp] theorem afterGroup_ilen : (x.afterGroup m j k).ilen = x.ilen := rfl
@[simp] theorem afterGroup_olen : (x.afterGroup m j k).olen = x.olen := rfl
@[simp] theorem afterGroup_n : (x.afterGroup m j k).n = x.n := rfl
@[simp] theorem afterGroup_ipos : (x.afterGroup m j k).ipos = x.ipos + j := rfl
@[simp] theorem afterGroup_opos : (x.afterGroup m j k).opos = x.opos + k := rfl
@[simp] theorem afterGroup_ibuf : (x.afterGroup m j k).ibuf = x.ibuf := rfl
@[simp] theorem afterGroup_obuf : (x.afterGroup m j k).obuf = m := rfl

end UnitUpdates

end Sys2Proof.Machine
end

