-- ==== Sys2Proof/Laws/Step.lean ====
section
/-! SUPPORT. What each shared operation and each agent's step can do, said once: inversion lemmas that later proofs cite
instead of unfolding the step. -/

namespace Sys2Proof.Machine

/-- The unit step of `ENC`: nothing when idle, a group, or the completion step (rules R22, R160). -/
theorem encUnitStep_cases {cap : Nat} {x y : CodecUnit} (h : encUnitStep cap x = .next y) :
    (x.status.busy = false ∧ y = x) ∨
    (x.status.busy = true ∧ x.ipos < x.n ∧ ∃ bs q, x.ipos + groupCount x ≤ x.n ∧
      readCells x.ibuf x.ipos (groupCount x) = some bs ∧ packSeq bs = some q ∧ x.opos + 4 ≤ cap ∧
      y = x.afterGroup (writeCells x.obuf x.opos (quadChars q)) (groupCount x) 4) ∨
    (x.status.busy = true ∧ ¬ x.ipos < x.n ∧ y = x.atSuccess) := by
  unfold encUnitStep at h
  split at h
  · next hb =>
    exact .inl ⟨hb, by simpa using h.symm⟩
  · next hb =>
    have hb : x.status.busy = true := by simpa using hb
    split at h
    · next hi =>
      simp only [encGroup, andThen_eq_next, memRead_eq_next, memWrite_eq_next] at h
      obtain ⟨bs, ⟨h1, h2⟩, q, hq, ob, ⟨h3, rfl⟩, h4⟩ := h
      refine .inr (.inl ⟨hb, hi, bs, q, h1, h2, ?_, h3, by simpa using h4.symm⟩)
      unfold packGroup at hq
      split at hq <;> simp_all
    · next hi =>
      exact .inr (.inr ⟨hb, hi, by simpa using h.symm⟩)

/-- What a group step of `DEC` does with the unpacker's result (rules R167, R168, R172). -/
theorem decQuad_cases {cap : Nat} {x y : CodecUnit} {r : Result (List Byte)} (h : decQuad cap x r = .next y) :
    (∃ e, r = .fail e ∧ y = x.atError e) ∨
    (∃ ys, r = .ok ys ∧ ys.length < 3 ∧ x.ipos + 4 ≠ x.n ∧ y = x.atError .invalidCharacter) ∨
    (∃ ys, r = .ok ys ∧ (3 ≤ ys.length ∨ x.ipos + 4 = x.n) ∧ x.opos + ys.length ≤ cap ∧
      y = x.afterGroup (writeCells x.obuf x.opos ys) 4 ys.length) := by
  unfold decQuad at h
  split at h
  · next e =>
    exact .inl ⟨e, rfl, by simpa using h.symm⟩
  · next ys =>
    split at h
    · next hc =>
      exact .inr (.inl ⟨ys, rfl, hc.1, hc.2, by simpa using h.symm⟩)
    · next hc =>
      simp only [andThen_eq_next, memWrite_eq_next] at h
      obtain ⟨ob, ⟨h3, rfl⟩, h4⟩ := h
      exact .inr (.inr ⟨ys, rfl, by omega, h3, by simpa using h4.symm⟩)

/-- The unit step of `DEC`: nothing when idle, the length error, a group, or the completion step (rules R22, R172). -/
theorem decUnitStep_cases {cap : Nat} {x y : CodecUnit} (h : decUnitStep cap x = .next y) :
    (x.status.busy = false ∧ y = x) ∨
    (x.status.busy = true ∧ x.n % 4 ≠ 0 ∧ y = x.atError .invalidLength) ∨
    (x.status.busy = true ∧ x.n % 4 = 0 ∧ x.ipos < x.n ∧ ∃ c0 c1 c2 c3, x.ipos + 4 ≤ x.n ∧
      readCells x.ibuf x.ipos 4 = some [c0, c1, c2, c3] ∧ decQuad cap x (unpack c0 c1 c2 c3) = .next y) ∨
    (x.status.busy = true ∧ x.n % 4 = 0 ∧ ¬ x.ipos < x.n ∧ y = x.atSuccess) := by
  unfold decUnitStep at h
  split at h
  · next hb => exact .inl ⟨hb, by simpa using h.symm⟩
  · next hb =>
    have hb : x.status.busy = true := by simpa using hb
    split at h
    · next hn => exact .inr (.inl ⟨hb, hn, by simpa using h.symm⟩)
    · next hn =>
      have hn : x.n % 4 = 0 := by omega
      split at h
      · next hi =>
        simp only [decGroup, andThen_eq_next, memRead_eq_next] at h
        obtain ⟨cs, ⟨h1, h2⟩, r, hr, h3⟩ := h
        unfold unpackSeq at hr
        split at hr
        · next c0 c1 c2 c3 =>
          obtain rfl : unpack c0 c1 c2 c3 = r := by simpa using hr
          exact .inr (.inr (.inl ⟨hb, hn, hi, c0, c1, c2, c3, h1, h2, h3⟩))
        · simp at hr
      · next hi => exact .inr (.inr (.inr ⟨hb, hn, hi, by simpa using h.symm⟩))

/-- All that START does when it is accepted (rules R30, R78, R214, R218). -/
theorem startUnit_eq_next {u : UnitId} {s t : State} :
    startUnit u s = .next t ↔ (s.unit u).status.busy = false ∧ (s.unit u).messageWritten = true ∧
      s.setUnit u (s.unit u).atStart = t := by
  unfold startUnit
  split
  · simp_all
  · split <;> simp_all

/-- What an operation does to a unit: nothing, or the START step of an idle unit whose command it is and whose message is
written (rules R25, R30, R214). -/
theorem exec_unit_cases {i : Instr} {s t : State} (h : exec i s = .next t) (u : UnitId) :
    t.unit u = s.unit u ∨
    (i = commandOf u ∧ (s.unit u).status.busy = false ∧ (s.unit u).messageWritten = true ∧
      t.unit u = (s.unit u).atStart) := by
  have hstart : ∀ v, startUnit v s = .next t → t.unit u = s.unit u ∨
      (v = u ∧ (s.unit u).status.busy = false ∧ (s.unit u).messageWritten = true ∧ t.unit u = (s.unit u).atStart) := by
    intro v hv
    obtain ⟨hb, hm, rfl⟩ := startUnit_eq_next.mp hv
    by_cases e : u = v
    · subst e
      exact .inr ⟨rfl, hb, hm, by simp⟩
    · exact .inl (unit_setUnit_other _ _ e)
  cases i with
  | encode =>
    rcases hstart .enc h with h | ⟨rfl, h⟩
    · exact .inl h
    · exact .inr ⟨rfl, h⟩
  | decode =>
    rcases hstart .dec h with h | ⟨rfl, h⟩
    · exact .inl h
    · exact .inr ⟨rfl, h⟩
  | _ =>
    left
    cases h
    simp

/-- What an operation leaves alone beside the units: nothing from outside, no turn and no free value is used (rule R25). -/
theorem exec_rest {i : Instr} {s t : State} (h : exec i s = .next t) :
    t.inputs = s.inputs ∧ t.turns = s.turns ∧ t.tick = s.tick := by
  have hstart : ∀ v, startUnit v s = .next t → t.inputs = s.inputs ∧ t.turns = s.turns ∧ t.tick = s.tick := by
    intro v hv
    obtain ⟨-, -, rfl⟩ := startUnit_eq_next.mp hv
    simp
  cases i with
  | encode => exact hstart .enc h
  | decode => exact hstart .dec h
  | _ =>
    cases h
    simp

/-- What a word can be at a control port: the command of that unit only (rule R103). -/
theorem decodeWord_command {p : Port} {w : Nat} {u : UnitId} (h : decodeWord p w = .ok (commandOf u)) :
    p = .control u := by
  cases p with
  | control v =>
    simp only [decodeWord] at h
    split at h
    · simp at h
    · split at h
      · cases u <;> cases v <;> simp_all [commandOf]
      · simp at h
  | symbol =>
    simp only [decodeWord] at h
    split at h <;> cases u <;> simp_all [commandOf]
  | char =>
    simp only [decodeWord] at h
    split at h <;> cases u <;> simp_all [commandOf]
  | triplet =>
    simp only [decodeWord, packForm] at h
    repeat' split at h
    all_goals cases u <;> simp_all [commandOf]
  | quad =>
    simp only [decodeWord, unpackForm] at h
    repeat' split at h
    all_goals cases u <;> simp_all [commandOf]

/-- What the host and the reset can do to a unit (rules R30, R32, R62, R212, R214, R217): nothing; START it, its message written;
write its length; write one of its input cells; reset it. All but the reset need it idle. -/
inductive HostEffect (c : Caps) (u : UnitId) (x : CodecUnit) : CodecUnit → Prop where
  | none : HostEffect c u x x
  | start (h : x.status.busy = false) (hm : x.messageWritten = true) : HostEffect c u x x.atStart
  | length (h : x.status.busy = false) (n : Nat) (hn : n ≤ c.icap u) : HostEffect c u x { x with ilen := n }
  | cell (h : x.status.busy = false) (a : Nat) (ha : a < c.icap u) (v : Byte) :
      HostEffect c u x { x with ibuf := x.ibuf.write a v }
  | reset : HostEffect c u x CodecUnit.reset

theorem whenIdle_eq_next {u : UnitId} {s t : State} {x : Host.Outcome State Fault Refusal} :
    whenIdle u s x = .next t ↔ (s.unit u).status.busy = false ∧ x = .next t := by
  unfold whenIdle
  split <;> simp_all

theorem runDecoded_unit {d : Except DecodeError Instr} {s t : State} (h : runDecoded d s = .next t) (u : UnitId) :
    t.unit u = s.unit u ∨
    (d = .ok (commandOf u) ∧ (s.unit u).status.busy = false ∧ (s.unit u).messageWritten = true ∧
      t.unit u = (s.unit u).atStart) := by
  cases d with
  | error e =>
    left
    cases e <;> simp [runDecoded, notAnOperation] at h
    rw [h]
  | ok i =>
    rcases exec_unit_cases h u with h' | ⟨rfl, h'⟩
    · exact .inl h'
    · exact .inr ⟨rfl, h'⟩

theorem applyInput_unit {c : Caps} {i : Input} {s t : State} (h : applyInput c i s = .next t) (u : UnitId) :
    HostEffect c u (s.unit u) (t.unit u) := by
  have hsame : t.unit u = s.unit u → HostEffect c u (s.unit u) (t.unit u) := fun e => e ▸ .none
  have hrun : ∀ d, runDecoded d s = .next t → HostEffect c u (s.unit u) (t.unit u) := by
    intro d hd
    rcases runDecoded_unit hd u with h | ⟨-, hb, hm, h⟩
    · exact hsame h
    · exact h ▸ .start hb hm
  cases i with
  | reset =>
    simp only [applyInput, Host.Outcome.next.injEq] at h
    subst h
    cases u <;> exact .reset
  | operand p bs => exact hrun _ h
  | wait v =>
    simp only [applyInput, Host.Outcome.next.injEq] at h
    subst h
    apply hsame
    unfold waitDone readStatus
    split <;> simp
  | result v =>
    simp only [applyInput, Host.Outcome.next.injEq] at h
    subst h
    simpa using HostEffect.none
  | resultCells v =>
    simp only [applyInput, Host.Outcome.next.injEq] at h
    subst h
    simpa using HostEffect.none
  | regRead v r =>
    apply hsame
    simp only [applyInput] at h
    unfold regRead at h
    split at h
    · cases (whenIdle_eq_next.mp h).2
      simp
    · cases h
      simp [readStatus]
    · cases (whenIdle_eq_next.mp h).2
      simp
    · cases (whenIdle_eq_next.mp h).2
      simp
    · simp at h
  | regWrite v r d =>
    simp only [applyInput] at h
    unfold regWrite at h
    split at h
    · exact hrun _ h
    · cases (whenIdle_eq_next.mp h).2
      exact .none
    · obtain ⟨hb, h⟩ := whenIdle_eq_next.mp h
      unfold writeLength at h
      split at h
      · simp at h
      · next hd =>
        cases h
        by_cases e : u = v
        · subst e
          rw [unit_setUnit_same]
          exact .length hb d (by omega)
        · rw [unit_setUnit_other _ _ e]
          exact .none
    · cases (whenIdle_eq_next.mp h).2
      exact .none
    · simp at h
  | bufWrite v a b =>
    simp only [applyInput, bufWrite] at h
    obtain ⟨hb, h⟩ := whenIdle_eq_next.mp h
    split at h
    · simp at h
    · next hd =>
      cases h
      by_cases e : u = v
      · subst e
        rw [unit_setUnit_same]
        exact .cell hb a (by omega) b
      · rw [unit_setUnit_other _ _ e]
        exact .none
  | bufRead v a =>
    apply hsame
    simp only [applyInput, bufRead] at h
    obtain ⟨-, h⟩ := whenIdle_eq_next.mp h
    split at h
    · simp at h
    · split at h
      · simp at h
      · split at h
        · cases h
          unfold readResultCell
          split <;> simp
        · simp at h

/-- A turn of the host, seen from one unit. -/
theorem hostStep_unit {c : Caps} {s t : State} (h : hostStep c s = .next t) (u : UnitId) :
    HostEffect c u (s.unit u) (t.unit u) := by
  unfold hostStep at h
  split at h
  · cases h
    exact .none
  · simpa using applyInput_unit h u

/-- A move of one agent, seen from one unit: its own step, another unit's (no change, rule R21), or the host's. -/
theorem agentStep_unit {c : Caps} {who : Agent} {s t : State} (h : agentStep c who s = .next t) (u : UnitId) :
    (who = .unit u ∧ unitStep c u (s.unit u) = .next (t.unit u)) ∨ HostEffect c u (s.unit u) (t.unit u) := by
  cases who with
  | host => exact .inr (hostStep_unit h u)
  | unit v =>
    simp only [agentStep, andThen_eq_next, Host.Outcome.next.injEq] at h
    obtain ⟨x, hx, rfl⟩ := h
    by_cases e : u = v
    · subst e
      exact .inl ⟨rfl, by simpa using hx⟩
    · rw [unit_setUnit_other _ _ e]
      exact .inr .none

/-- A step is the move of some agent on a state with the same units and the same moves still to come, or nothing at all. -/
theorem stepWith_agent {c : Caps} {s : State} {o : Host.Outcome State Fault Refusal} (h : stepWith c s = o) :
    o = .next s ∨ ∃ who s', agentStep c who s' = o ∧ s'.enc = s.enc ∧ s'.dec = s.dec ∧ s'.inputs = s.inputs := by
  subst h
  unfold stepWith
  split
  · unfold freeStep
    split
    · exact .inl rfl
    · next who _ => exact .inr ⟨who, s.drawn, rfl, rfl, rfl, rfl⟩
  · next who rest _ => exact .inr ⟨who, s.setTurns rest, rfl, rfl, rfl, rfl⟩

/-- A step, seen from one unit: its own unit step, or an effect of the host's. -/
theorem stepWith_unit {c : Caps} {s t : State} (h : stepWith c s = .next t) (u : UnitId) :
    unitStep c u (s.unit u) = .next (t.unit u) ∨ HostEffect c u (s.unit u) (t.unit u) := by
  rcases stepWith_agent h with h | ⟨who, s', h, h1, h2, -⟩
  · cases h
    exact .inr .none
  · have e : s'.unit u = s.unit u := by cases u <;> assumption
    rw [← e]
    rcases agentStep_unit h u with ⟨-, h⟩ | h
    · exact .inl h
    · exact .inr h

/-- A step whose turn is a unit's is that unit's step, on the state with the turn used. -/
theorem step_of_turn {s : State} {u : UnitId} {ts : List Agent} (ht : s.turns = .unit u :: ts) :
    step s = andThen (unitStep Config.caps u (s.unit u)) fun x => .next ((s.setTurns ts).setUnit u x) := by
  simp only [step, stepWith, ht, agentStep]
  cases u <;> rfl

/-- An idle unit does nothing (rule R22). -/
theorem unitStep_idle {c : Caps} {u : UnitId} {x : CodecUnit} (h : x.status.busy = false) :
    unitStep c u x = .next x := by
  cases u <;> simp [unitStep, encUnitStep, decUnitStep, h]

/-- No operation faults. -/
theorem exec_no_fault (i : Instr) (s : State) (r : Fault) : exec i s ≠ .fault r := by
  have hu : ∀ u, startUnit u s ≠ .fault r := by
    intro u
    unfold startUnit
    repeat' split
    all_goals
      intro h
      cases h
  cases i
  case encode => exact hu _
  case decode => exact hu _
  all_goals
    intro h
    cases h

end Sys2Proof.Machine
end

