-- ==== Sys2Proof/Tests/Slice0.lean ====
section
/-! SUPPORT. Small tests, their expected values from spec/95_test_vectors.md and the rules' own corner cases, and for every
statement with hypotheses a witness that meets them together. -/

namespace Sys2Proof.Tests

open Sys2Proof Sys2Proof.Machine Sys2Proof.Safety

/-! ## WellFormed: an ill-formed term for each check -/

/-- R142: with `=` in `c3` the quad is UNPACK2's. -/
theorem test_illformed_unpack3 : Instr.wellFormed (.unpack3 0x41 0x41 0x41 0x3D) = false := by decide

/-- R143: with `=` in `c2` and `c3` the quad is UNPACK1's. -/
theorem test_illformed_unpack2 : Instr.wellFormed (.unpack2 0x41 0x41 0x3D) = false := by decide

/-- R144: `[x,x,=,x]` is UNPACK3's quad and well formed; it fails when it runs. -/
theorem test_wellformed_unpack3_pad_in_c2 : Instr.wellFormed (.unpack3 0x41 0x41 0x3D 0x41) = true := by decide

/-! ## Decode: words written out bit by bit from R92, R95, R97, R103 -/

theorem test_decode_s2c : decodeWord .symbol 0b0011001 = .ok (.s2c (.data 25)) := by decide

theorem test_decode_s2c_pad : decodeWord .symbol 0b1000000 = .ok (.s2c .pad) := by decide

theorem test_decode_c2s : decodeWord .char 0b01010001 = .ok (.c2s 0x51) := by decide

theorem test_decode_pack3 :
    decodeWord .triplet 0b11010100000110000101101110 = .ok (.pack3 0x50 0x61 0x6E) := by decide

theorem test_decode_pack2 :
    decodeWord .triplet 0b10011001010110011000000000 = .ok (.pack2 0x65 0x66) := by decide

theorem test_decode_pack1 :
    decodeWord .triplet 0b01011001010000000000000000 = .ok (.pack1 0x65) := by decide

theorem test_decode_unpack3 :
    decodeWord .quad 0b01010100010101110100011001110101 = .ok (.unpack3 0x54 0x57 0x46 0x75) := by decide

theorem test_decode_unpack2 :
    decodeWord .quad 0b01010100010101110100010100111101 = .ok (.unpack2 0x54 0x57 0x45) := by decide

theorem test_decode_unpack1 :
    decodeWord .quad 0b01010100010100010011110100111101 = .ok (.unpack1 0x54 0x51) := by decide

theorem test_decode_encode : decodeWord (.control .enc) 0b1 = .ok .encode := by decide

theorem test_decode_decode : decodeWord (.control .dec) 0b1 = .ok .decode := by decide

/-- R109 (a): count 0 is reserved. -/
theorem test_decode_count_zero : decodeWord .triplet 0x0000000 = .error .countZero := by decide

/-- R109 (c): a bit above the format is no operation. -/
theorem test_decode_upper_bits : decodeWord .symbol 0b10000000 = .error .upperBits := by decide

/-- Bytes are laid out least significant first: PACK1 of 0x65. -/
theorem test_decode_bytes : decodeBytes .triplet [0x00, 0x00, 0x65, 0x01] = .ok (.pack1 0x65) := by decide

/-- A row of the opcode table read at the port its word belongs to. -/
theorem test_table_word : decodeTableWord 32 0x3000000 = some (.pack3 0 0 0) := by decide

/-! ## The leaf operations: 95_test_vectors.md sections 1 to 5 -/

theorem test_s2c_ranges :
    [0, 25, 26, 51, 52, 61, 62, 63].map (fun v => symToChar (.data v)) =
      [0x41, 0x5A, 0x61, 0x7A, 0x30, 0x39, 0x2B, 0x2F] := by decide

theorem test_s2c_pad : exec (.s2c .pad) State.reset = .next (State.reset.reply (.char 0x3D)) := rfl

theorem test_c2s_data :
    [0x41, 0x5A, 0x61, 0x7A, 0x30, 0x39, 0x2B, 0x2F].map charToSym =
      [.ok 0, .ok 25, .ok 26, .ok 51, .ok 52, .ok 61, .ok 62, .ok 63] := by decide

theorem test_c2s_fails :
    ∀ c ∈ ([0x40, 0x5B, 0x60, 0x7B, 0x2E, 0x3A, 0x2A, 0x2C, 0x2D, 0x5F, 0x3D, 0x00, 0x80, 0xFF] : List Byte),
      charToSym c = .fail .invalidCharacter := by decide

theorem test_pack3_pan : pack3 0x50 0x61 0x6E = ⟨.data 20, .data 6, .data 5, .data 46⟩ := by decide

theorem test_pack3_ends : pack3 0x80 0x00 0x01 = ⟨.data 32, .data 0, .data 0, .data 1⟩ := by decide

theorem test_pack2_vector : pack2 0x65 0x66 = ⟨.data 25, .data 22, .data 24, .pad⟩ := by decide

theorem test_pack2_ones : pack2 0xFF 0xFF = ⟨.data 63, .data 63, .data 60, .pad⟩ := by decide

theorem test_pack1_vector : pack1 0x65 = ⟨.data 25, .data 16, .pad, .pad⟩ := by decide

theorem test_pack1_ones : pack1 0xFF = ⟨.data 63, .data 48, .pad, .pad⟩ := by decide

theorem test_unpack3_man : unpack3 0x54 0x57 0x46 0x75 = .ok [0x4D, 0x61, 0x6E] := by decide

theorem test_unpack3_lone_pad : unpack3 0x41 0x41 0x3D 0x41 = .fail .invalidCharacter := by decide

theorem test_unpack2_ignored_bits : unpack2 0x54 0x57 0x46 = .ok [0x4D, 0x61] := by decide

theorem test_unpack2_pad_in_c1 : unpack2 0x41 0x3D 0x41 = .fail .invalidCharacter := by decide

theorem test_unpack1_ignored_bits : unpack1 0x54 0x2F = .ok [0x4F] := by decide

theorem test_unpack1_pad_in_c1 : unpack1 0x41 0x3D = .fail .invalidCharacter := by decide

/-! ## The functions: vectors S6 to S9, and R167's examples -/

theorem test_encode_pancake :
    encodeMessage [0x50, 0x61, 0x6E, 0x63, 0x61, 0x6B, 0x65] =
      [0x55, 0x47, 0x46, 0x75, 0x59, 0x32, 0x46, 0x72, 0x5A, 0x51, 0x3D, 0x3D] := by decide

/-- Vectors S9, S6, S7 and rule R167's example. -/
theorem test_decode_vectors :
    decodeMessage [0x55, 0x47, 0x46, 0x75, 0x59, 0x32, 0x46, 0x72, 0x5A, 0x51, 0x3D, 0x3D] =
      .ok [0x50, 0x61, 0x6E, 0x63, 0x61, 0x6B, 0x65] ∧
    decodeMessage [0x61, 0x62, 0x63] = .fail .invalidLength ∧
    decodeMessage [0x61, 0x62, 0x21, 0x64] = .fail .invalidCharacter ∧
    decodeMessage [0x51, 0x51, 0x3D, 0x3D, 0x51, 0x55, 0x4A, 0x44] = .fail .invalidCharacter := by decide

/-! ## States for the unit steps and the witnesses -/

/-- `ENC` with the message `[0x65]`. -/
def encOne : CodecUnit := { CodecUnit.reset with ilen := 1, ibuf := [(0, 0x65)] }

/-- `ENC` after it has encoded `[0x65]`. -/
def encOneDone : CodecUnit :=
  { encOne with
    status := ⟨false, true, none⟩
    n := 1
    ipos := 1
    opos := 4
    olen := 4
    obuf := [(0, 0x5A), (1, 0x51), (2, 0x3D), (3, 0x3D)] }

/-- `DEC` with the message "TQ==". -/
def decOne : CodecUnit :=
  { CodecUnit.reset with ilen := 4, ibuf := [(0, 0x54), (1, 0x51), (2, 0x3D), (3, 0x3D)] }

/-- `DEC` with the message "T!==". -/
def decBad : CodecUnit :=
  { CodecUnit.reset with ilen := 4, ibuf := [(0, 0x54), (1, 0x21), (2, 0x3D), (3, 0x3D)] }

/-- `DEC` with the message "QQ==QUJD", whose padded quad is not the final one. -/
def decTwo : CodecUnit :=
  { CodecUnit.reset with
    ilen := 8
    ibuf := [(0, 0x51), (1, 0x51), (2, 0x3D), (3, 0x3D), (4, 0x51), (5, 0x55), (6, 0x4A), (7, 0x44)] }

/-- `DEC` with the message "QUJDQQ==", whose first quad is full. -/
def decFull : CodecUnit :=
  { CodecUnit.reset with
    ilen := 8
    ibuf := [(0, 0x51), (1, 0x55), (2, 0x4A), (3, 0x44), (4, 0x51), (5, 0x51), (6, 0x3D), (7, 0x3D)] }

/-- `DEC` after an `InvalidCharacter`, with a cell of its output buffer written. -/
def decFailed : CodecUnit :=
  { decOne with status := ⟨false, true, some .invalidCharacter⟩, n := 4, obuf := [(0, 0x41)] }

/-- The state with these units, nothing to come from outside, and the turns given. -/
def stateOf (e d : CodecUnit) (ts : List Agent) : State := { State.reset with enc := e, dec := d, turns := ts }

theorem encInv (x : CodecUnit) (h : x = encOne ∨ x = encOne.atStart ∨ x = encOneDone) :
    UnitInv Config.caps .enc x := by
  have h1 : Config.caps.icap .enc = Config.eIcapAboveOne + 1 := rfl
  have h2 : Config.caps.ocap .enc = 4 * ((Config.eIcapAboveOne + 1 + 2) / 3) := rfl
  rcases h with rfl | rfl | rfl <;> constructor <;>
    simp [encOne, encOneDone, CodecUnit.reset, StatusLegal, Cursors, EncCursors, resultOf, h1, h2, readCells,
      Memory.read] <;> omega

theorem decInv (x : CodecUnit) (h : x = decOne ∨ x = decOne.atStart ∨ x = decFailed) :
    UnitInv Config.caps .dec x := by
  have h1 : Config.caps.icap .dec = Config.dIcapAboveFour + 4 := rfl
  have h2 : Config.caps.ocap .dec = 3 * ((Config.dIcapAboveFour + 4) / 4) := rfl
  rcases h with rfl | rfl | rfl <;> constructor <;>
    simp [decOne, decFailed, CodecUnit.reset, StatusLegal, Cursors, DecCursors, resultOf, h1, h2, readCells,
      Memory.read]

theorem idleInv (ts : List Agent) : Inv (stateOf encOne decOne ts) :=
  ⟨encInv _ (.inl rfl), decInv _ (.inl rfl)⟩

theorem busyInv (ts : List Agent) : Inv (stateOf encOne.atStart decOne.atStart ts) :=
  ⟨encInv _ (.inr (.inl rfl)), decInv _ (.inr (.inl rfl))⟩

theorem doneInv (ts : List Agent) : Inv (stateOf encOneDone decFailed ts) :=
  ⟨encInv _ (.inr (.inr rfl)), decInv _ (.inr (.inr rfl))⟩

/-! ## Unit steps at concrete capacities -/

/-- R160, vector "ZQ==": the group step. -/
theorem test_encoder_group :
    encUnitStep 4 encOne.atStart =
      .next { encOneDone with status := ⟨true, false, none⟩, olen := 0 } := rfl

/-- R172, vector "TQ==": the group step. -/
theorem test_decoder_group :
    decUnitStep 3 decOne.atStart =
      .next { decOne.atStart with obuf := [(0, 0x4D)], ipos := 4, opos := 1 } := rfl

/-- R31: `x_STATUS` after an `InvalidCharacter`. -/
theorem test_status_word : statusWord decFailed.status = 0b1010#4 := by decide

/-- An opcode-table word placed for the next step runs as the first operation after reset. -/
theorem test_fetch_word :
    step (State.reset.withFetchWord 32 0x3506162) =
      .next (State.reset.reply (.symbols (pack3 0x50 0x61 0x62))) := rfl

/-- R112: LOAD writes the length last. -/
theorem test_load_moves :
    loadMoves .enc 0 [0x65] = [.bufWrite .enc 0 0x65, .regWrite .enc 2 1] := by decide

/-! ## Witnesses: for each statement with hypotheses, data that meet them together -/

/-- A group step and a completion step of the encoder, taken by `step`. -/
theorem encStep1 :
    step (stateOf encOne.atStart decOne [.unit .enc, .unit .enc]) =
      .next (stateOf { encOneDone with status := ⟨true, false, none⟩, olen := 0 } decOne [.unit .enc]) := by
  have h : ¬ 4 * ((Config.eIcapAboveOne + 1 + 2) / 3) < 0 + 4 := by omega
  rw [step_of_turn rfl]
  have e : unitStep Config.caps .enc encOne.atStart =
      .next { encOneDone with status := ⟨true, false, none⟩, olen := 0 } := by
    show encUnitStep (4 * ((Config.eIcapAboveOne + 1 + 2) / 3)) _ = _
    have hm : memWrite (4 * ((Config.eIcapAboveOne + 1 + 2) / 3)) [] 0 [0x5A, 0x51, 0x3D, 0x3D] =
        .next [(0, 0x5A), (1, 0x51), (2, 0x3D), (3, 0x3D)] := by
      exact if_neg h
    show andThen (memWrite _ [] 0 [0x5A, 0x51, 0x3D, 0x3D]) _ = _
    rw [hm]
    rfl
  exact congrArg (fun o => andThen o _) e

theorem encStep2 :
    step (stateOf { encOneDone with status := ⟨true, false, none⟩, olen := 0 } decOne [.unit .enc]) =
      .next (stateOf encOneDone decOne []) := by
  rw [step_of_turn rfl]
  rfl

theorem witness_StepKeepsTheInvariant :
    Inv (stateOf encOne.atStart decOne [.unit .enc, .unit .enc]) ∧
    step (stateOf encOne.atStart decOne [.unit .enc, .unit .enc]) =
      .next (stateOf { encOneDone with status := ⟨true, false, none⟩, olen := 0 } decOne [.unit .enc]) :=
  ⟨⟨encInv _ (.inr (.inl rfl)), decInv _ (.inl rfl)⟩, encStep1⟩

theorem witness_StatusTakesOnlyLegalValues :
    ∃ s t, Inv s ∧ step s = .next t := ⟨_, _, witness_StepKeepsTheInvariant⟩

theorem witness_LengthsFitTheirRegisters : Inv (stateOf encOneDone decFailed []) := doneInv []

theorem witness_NoStepFaults : Inv (stateOf encOne.atStart decOne.atStart [.unit .dec]) := busyInv _

theorem witness_DecodeOfEncodeIsTheInstruction :
    Instr.wellFormed (.unpack3 0x3D 0x3D 0x3D 0xFF) = true ∧ Instr.wellFormed (.unpack2 0xFF 0x00 0x3C) = true := by
  decide

theorem witness_DecodedWordsAreWellFormed :
    decodeBytes .quad [0x3D, 0x3D, 0x51, 0x54] = .ok (.unpack1 0x54 0x51) ∧ Port.quad ≠ .symbol ∧
      Port.quad ≠ .triplet := by decide

theorem witness_StepRunsTheDecodedWord :
    ∃ s : State, decodeBytes .char [0x51] = .ok (.c2s 0x51) ∧ s.inputs = .operand .char [0x51] :: [] ∧
      s.turns = .host :: [] :=
  ⟨{ State.reset with inputs := [.operand .char [0x51]], turns := [.host] }, by decide, rfl, rfl⟩

theorem witness_StepRunsTheDecodedWord_free :
    ∃ s : State, decodeBytes .char [0x51] = .ok (.c2s 0x51) ∧ s.inputs = .operand .char [0x51] :: [] ∧
      s.turns = [] ∧ s.enc.status.busy = false ∧ s.dec.status.busy = false :=
  ⟨{ State.reset with inputs := [.operand .char [0x51]] }, by decide, rfl, rfl, rfl, rfl⟩

theorem witness_StepRunsTheStartWrite :
    ∀ u : UnitId, ∃ s : State, s.turns = .host :: [] ∧ s.inputs = .regWrite u 0 1 :: [] := fun u =>
  ⟨{ State.reset with inputs := [.regWrite u 0 1], turns := [.host] }, rfl, rfl⟩

theorem witness_IdleAgentsChangeNothing :
    (stateOf encOne decOne [.unit .enc]).turns = .unit .enc :: [] ∧
      ((stateOf encOne decOne [.unit .enc]).unit .enc).status.busy = false ∧
      (stateOf encOne decOne []).turns = [] ∧ (stateOf encOne decOne []).inputs = [] := by decide

/-- R93: a symbol at each end of each range. -/
theorem witness_S2CGivesTheTablesCharacter :
    [0, 25, 26, 51, 52, 61, 62, 63].map dataChar = [0x41, 0x5A, 0x61, 0x7A, 0x30, 0x39, 0x2B, 0x2F] := by decide

theorem witness_C2SInvertsTheDataCharacters : dataChar 63 = 0x2F ∧ ∀ v : Val6, dataChar v ≠ 0x40 := by decide

theorem witness_AlphabetMappingsAreInverse :
    charToSym 0x2B = .ok 62 ∧ symToChar .pad = symToChar .pad := by decide

theorem witness_Pack3RegroupsTwentyFourBits : pack3 0xFB 0xEF 0xBE = pack3 0xFB 0xEF 0xBE := rfl

theorem witness_Unpack3GivesThreeBytes :
    (0x54 = dataChar 19 ∧ 0x57 = dataChar 22 ∧ 0x46 = dataChar 5 ∧ 0x75 = dataChar 46) ∧
      (0x3D : Byte) ∉ alphabet := by decide

theorem witness_Unpack2GivesTwoBytes :
    (0x54 = dataChar 19 ∧ 0x57 = dataChar 22 ∧ 0x45 = dataChar 4) ∧ (0x80 : Byte) ∉ alphabet := by decide

theorem witness_Unpack1GivesOneByte :
    (0x54 = dataChar 19 ∧ 0x51 = dataChar 16) ∧ (0x21 : Byte) ∉ alphabet := by decide

/-- R144: the pattern `[x,x,=,x]`, and `=` in `c1` of a quad that UNPACK1 takes. -/
theorem witness_MisplacedPadFails :
    ((0x3D : Byte) = padCode ∧ (0x41 : Byte) ≠ padCode) ∧
      unpackForm 0x41 0x41 0x3D 0x41 = .unpack3 0x41 0x41 0x3D 0x41 ∧
      unpackForm 0x41 0x3D 0x3D 0x3D = .unpack1 0x41 0x3D := by decide

/-- R146: "Zg==" and "Zh==", "ZWY=" and "ZWZ=". -/
theorem witness_UnreferencedBitsAreIgnored :
    (charToSym 0x67 = .ok 32 ∧ charToSym 0x68 = .ok 33 ∧
      (32 : Val6).extractLsb' 4 2 = (33 : Val6).extractLsb' 4 2) ∧
    (charToSym 0x59 = .ok 24 ∧ charToSym 0x5A = .ok 25 ∧
      (24 : Val6).extractLsb' 2 4 = (25 : Val6).extractLsb' 2 4) := by decide

theorem witness_UnpackInvertsPack :
    packSeq [0x65] = some ⟨.data 25, .data 16, .pad, .pad⟩ ∧
    packSeq [0x65, 0x66] = some ⟨.data 25, .data 22, .data 24, .pad⟩ ∧
    packSeq [0x50, 0x61, 0x6E] = some ⟨.data 20, .data 6, .data 5, .data 46⟩ := by decide

theorem witness_LeafOperationsOnlyReply : Instr.c2s 0x3D ≠ .encode ∧ Instr.c2s 0x3D ≠ .decode := by decide

theorem witness_StartIsOneIndivisibleStep :
    let s := stateOf encOne decOne []
    (s.enc.status.busy = false ∧ messageOf s.enc = some [0x65]) ∧
      (s.dec.status.busy = false ∧ messageOf s.dec = some [0x54, 0x51, 0x3D, 0x3D]) := by decide

/-- A message of 3 cells none of which is written, and one of 8 whose last cell alone is not: neither DECODE may run to an error
(R78, R214). -/
theorem witness_StartIsOneIndivisibleStep_refused :
    (let s := stateOf encOne { CodecUnit.reset with ilen := 3 } [];
      (s.unit .dec).status.busy = false ∧ 0 < (s.unit .dec).ilen ∧ (s.unit .dec).ibuf.read 0 = none) ∧
    (let s := stateOf encOne { decTwo with ibuf := decTwo.ibuf.take 7 } [];
      (s.unit .dec).status.busy = false ∧ 7 < (s.unit .dec).ilen ∧ (s.unit .dec).ibuf.read 7 = none) := by decide

theorem witness_StartWhileBusyIsRefused :
    (stateOf encOne.atStart decOne.atStart []).enc.status.busy = true ∧
      (stateOf encOne.atStart decOne.atStart []).dec.status.busy = true := by decide

theorem witness_EncoderGroupStep :
    let s := stateOf encOne.atStart decOne [.unit .enc]
    s.turns = .unit .enc :: [] ∧ s.enc.status.busy = true ∧ s.enc.ipos < s.enc.n ∧
      readCells s.enc.ibuf s.enc.ipos (min 3 (s.enc.n - s.enc.ipos)) = some [0x65] ∧
      s.enc.opos + 4 ≤ Config.caps.ocap .enc := by
  refine ⟨rfl, rfl, by decide, by decide, ?_⟩
  show 0 + 4 ≤ 4 * ((Config.eIcapAboveOne + 1 + 2) / 3)
  omega

theorem witness_EncoderCompletionStep :
    let s := stateOf { encOneDone with status := ⟨true, false, none⟩, olen := 0 } decOne [.unit .enc]
    s.turns = .unit .enc :: [] ∧ s.enc.status.busy = true ∧ s.enc.n ≤ s.enc.ipos := by decide

/-- Both ways to be allowed: a full quad that is not the last, and a padded last quad. -/
theorem witness_DecoderGroupStep :
    (let s := stateOf encOne decFull.atStart [.unit .dec];
      s.turns = .unit .dec :: [] ∧ s.dec.status.busy = true ∧ s.dec.n % 4 = 0 ∧ s.dec.ipos + 4 ≤ s.dec.n ∧
        readCells s.dec.ibuf s.dec.ipos 4 = some [0x51, 0x55, 0x4A, 0x44] ∧
        unpack 0x51 0x55 0x4A 0x44 = .ok [0x41, 0x42, 0x43] ∧ s.dec.opos + 3 ≤ Config.caps.ocap .dec) ∧
    (let s := stateOf encOne decOne.atStart [.unit .dec];
      s.turns = .unit .dec :: [] ∧ s.dec.status.busy = true ∧ s.dec.n % 4 = 0 ∧ s.dec.ipos + 4 = s.dec.n ∧
        readCells s.dec.ibuf s.dec.ipos 4 = some [0x54, 0x51, 0x3D, 0x3D] ∧
        unpack 0x54 0x51 0x3D 0x3D = .ok [0x4D] ∧ s.dec.opos + 1 ≤ Config.caps.ocap .dec) := by
  refine ⟨⟨rfl, rfl, rfl, by decide, by decide, by decide, ?_⟩, ⟨rfl, rfl, rfl, rfl, by decide, by decide, ?_⟩⟩
  · show 0 + 3 ≤ 3 * ((Config.dIcapAboveFour + 4) / 4)
    omega
  · show 0 + 1 ≤ 3 * ((Config.dIcapAboveFour + 4) / 4)
    omega

/-- The three causes: a length of 3, the quad "T!==", and "QQ==" before the end. -/
theorem witness_DecoderErrorCompletion :
    (let s := stateOf encOne { decOne with ilen := 3 }.atStart [.unit .dec];
      s.turns = .unit .dec :: [] ∧ s.dec.status.busy = true ∧ s.dec.n % 4 ≠ 0) ∧
    (let s := stateOf encOne decBad.atStart [.unit .dec];
      s.turns = .unit .dec :: [] ∧ s.dec.status.busy = true ∧ s.dec.n % 4 = 0 ∧ s.dec.ipos + 4 ≤ s.dec.n ∧
        readCells s.dec.ibuf s.dec.ipos 4 = some [0x54, 0x21, 0x3D, 0x3D] ∧
        unpack 0x54 0x21 0x3D 0x3D = .fail .invalidCharacter) ∧
    (let s := stateOf encOne decTwo.atStart [.unit .dec];
      s.turns = .unit .dec :: [] ∧ s.dec.status.busy = true ∧ s.dec.n % 4 = 0 ∧ s.dec.ipos + 4 ≤ s.dec.n ∧
        readCells s.dec.ibuf s.dec.ipos 4 = some [0x51, 0x51, 0x3D, 0x3D] ∧ (0x3D : Byte) = padCode ∧
        s.dec.ipos + 4 ≠ s.dec.n) := by decide

theorem witness_DecoderCompletionStep :
    let s := stateOf encOne CodecUnit.reset.atStart [.unit .dec]
    s.turns = .unit .dec :: [] ∧ s.dec.status.busy = true ∧ s.dec.n % 4 = 0 ∧ s.dec.n ≤ s.dec.ipos := by decide

theorem witness_EncoderStepFrame :
    ∃ s t : State, s.turns = .unit .enc :: [.unit .enc] ∧ step s = .next t := ⟨_, _, rfl, encStep1⟩

/-- An error completion of the decoder, taken by `step`. -/
theorem decStep1 :
    step (stateOf encOne decBad.atStart [.unit .dec]) =
      .next (stateOf encOne (decBad.atStart.atError .invalidCharacter) []) := by
  rw [step_of_turn rfl]
  rfl

theorem witness_DecoderStepFrame :
    ∃ s t : State, s.turns = .unit .dec :: [] ∧ step s = .next t := ⟨_, _, rfl, decStep1⟩

theorem witness_CommandFrame :
    exec .encode (stateOf encOne decOne []) = .next (stateOf encOne.atStart decOne []) ∧
      exec .decode (stateOf encOne decOne []) = .next (stateOf encOne decOne.atStart []) := ⟨rfl, rfl⟩

theorem witness_UnitsShareNothing :
    ∃ s t : State, UnitId.dec ≠ .enc ∧ s.turns = .unit .enc :: [.unit .enc] ∧ step s = .next t :=
  ⟨_, _, by decide, rfl, encStep1⟩

theorem witness_BusyUnitMakesProgress :
    ∀ u : UnitId, ∃ s : State, Inv s ∧ (s.unit u).status.busy = true ∧ s.turns = .unit u :: []
  | .enc => ⟨stateOf encOne.atStart decOne.atStart [.unit .enc], busyInv _, rfl, rfl⟩
  | .dec => ⟨stateOf encOne.atStart decOne.atStart [.unit .dec], busyInv _, rfl, rfl⟩

theorem witness_EncodeEndsWithItsResult :
    let s := stateOf encOne decOne []
    Inv s ∧ s.enc.status.busy = false ∧ messageOf s.enc = some [0x65] := ⟨idleInv _, rfl, by decide⟩

theorem witness_DecodeEndsWithItsResult :
    let s := stateOf encOne decOne []
    Inv s ∧ s.dec.status.busy = false ∧ messageOf s.dec = some [0x54, 0x51, 0x3D, 0x3D] ∧
      decodeMessage [0x54, 0x51, 0x3D, 0x3D] = .ok [0x4D] :=
  ⟨idleInv _, rfl, by decide, by decide⟩

theorem witness_EncodeAgreesUnderAnySchedule :
    ∃ (s t0 t : State) (k : Nat), Inv s ∧ s.enc.status.busy = false ∧ messageOf s.enc = some [0x65] ∧
      (∀ i ∈ s.inputs, spares .enc i = true) ∧ exec .encode s = .next t0 ∧ run k t0 = .next t ∧
      t.enc.status.busy = false := by
  refine ⟨stateOf encOne decOne [.unit .enc, .unit .enc], stateOf encOne.atStart decOne [.unit .enc, .unit .enc],
    stateOf encOneDone decOne [], 2, idleInv _, rfl, by decide, by decide, rfl, ?_, rfl⟩
  simp only [run, encStep1, encStep2, andThen_next]

/-- `DEC` ends with an error in two steps; a read of its status may stand in the list meanwhile. -/
theorem witness_DecodeAgreesUnderAnySchedule :
    ∃ (s t0 t : State) (k : Nat), Inv s ∧ s.dec.status.busy = false ∧ messageOf s.dec = some [] ∧
      (∀ i ∈ s.inputs, spares .dec i = true) ∧ exec .decode s = .next t0 ∧ run k t0 = .next t ∧
      t.dec.status.busy = false := by
  refine ⟨{ stateOf encOne CodecUnit.reset [.host, .unit .dec] with inputs := [.regRead .dec 1] }, _, _, 2,
    ⟨encInv _ (.inl rfl), ?_⟩, rfl, rfl, by decide, rfl, rfl, rfl⟩
  constructor <;> simp [stateOf, CodecUnit.reset, StatusLegal, Cursors, DecCursors, resultOf]

theorem witness_DecodedLength :
    decodeMessage [0x54, 0x51, 0x3D, 0x3D] = .ok [0x4D] ∧
      [0x54, 0x51, 0x3D, 0x3D].length ≤ Config.caps.icap .dec := by
  refine ⟨by decide, ?_⟩
  show 4 ≤ Config.dIcapAboveFour + 4
  omega

theorem witness_DecodeSucceedsExactlyOnWellFormed :
    [0x54, 0x21, 0x3D, 0x3D].length % 4 = 0 ∧
      ∀ ys, decodeMessage [0x54, 0x21, 0x3D, 0x3D] ≠ .ok ys := by
  refine ⟨rfl, fun ys h => ?_⟩
  have e : decodeMessage [0x54, 0x21, 0x3D, 0x3D] = .fail .invalidCharacter := by decide
  rw [e] at h
  cases h

theorem witness_MemWriteSetsItsRunOnly : 2 + ([0x41, 0x42] : List Byte).length ≤ 4 ∧ Memory.wf [(0, 0x40)] := by decide

theorem witness_MemReadGivesItsCells :
    0 + 2 ≤ 2 ∧ ∃ k, k < 2 ∧ Memory.read [(0, 0x41)] (0 + k) = none := ⟨by decide, 1, by decide, by decide⟩

theorem witness_IdleRegisterAccesses : ∀ u, ((stateOf encOne decOne []).unit u).status.busy = false := by
  intro u
  cases u <;> rfl

/-- The largest length that may be written, and the least that may not. -/
theorem witness_LengthWriteUpToCapacity :
    ∀ u, ((stateOf encOne decOne []).unit u).status.busy = false ∧ Config.caps.icap u ≤ Config.caps.icap u ∧
      Config.caps.icap u < Config.caps.icap u + 1 := fun u =>
  ⟨witness_IdleRegisterAccesses u, Nat.le_refl _, Nat.lt_succ_self _⟩

/-- The first cell, and the first index that is no cell. -/
theorem witness_CellWriteChangesOneCell :
    ∀ u, ((stateOf encOne decOne []).unit u).status.busy = false ∧ 0 < Config.caps.icap u ∧
      Config.caps.icap u ≤ Config.caps.icap u := fun u =>
  ⟨witness_IdleRegisterAccesses u, by cases u <;> exact Nat.succ_pos _, Nat.le_refl _⟩

theorem witness_ResultCellsAreReadable :
    let s := stateOf encOneDone decFailed []
    Inv s ∧ (s.unit .enc).status.done = true ∧ (s.unit .enc).status.err = none ∧ 3 < (s.unit .enc).olen :=
  ⟨doneInv _, rfl, rfl, by decide⟩

/-- After an error: a written cell, and one that nothing has written. -/
theorem witness_CellsOutsideTheResult :
    let s := stateOf encOneDone decFailed []
    (s.unit .dec).status.busy = false ∧ (s.unit .dec).status.done = true ∧ 1 < Config.caps.ocap .dec ∧
      (s.unit .dec).obuf.read 0 = some 0x41 ∧ (s.unit .dec).status.err ≠ none ∧ (s.unit .dec).obuf.read 1 = none := by
  refine ⟨rfl, rfl, ?_, by decide, by decide, by decide⟩
  show 1 < 3 * ((Config.dIcapAboveFour + 4) / 4)
  omega

theorem witness_BusyUnitRefusesTheHost :
    ∀ u, ((stateOf encOne.atStart decOne.atStart []).unit u).status.busy = true := by
  intro u
  cases u <;> rfl

theorem witness_PseudoMovesExpand :
    let s := stateOf encOneDone decFailed []
    ((s.unit .enc).status.done = true ∧ (s.unit .enc).status.err = none ∧ 3 < (s.unit .enc).olen) ∧
      (s.unit .dec).status.err ≠ none ∧ ((stateOf encOne decOne []).unit .enc).status.done = false := by decide

end Sys2Proof.Tests
end

section
/-! SUPPORT. The lengths and cursors of a unit under the invariant: each is at most a capacity of the unit, and both
capacities fit in `x_LENW` bits (rules R6, R110 (c)). -/

namespace Sys2Proof

variable (c : Caps) (u : UnitId)

/-- `x_LENW` bits hold the larger of the two capacities, hence all that is at most one of them (rule R6). -/
theorem Caps.max_lt_two_pow_lenWidth : max (c.icap u) (c.ocap u) < 2 ^ c.lenWidth u := Nat.lt_log2_self

theorem Caps.lt_two_pow_lenWidth_of_le_icap {k : Nat} (h : k ≤ c.icap u) : k < 2 ^ c.lenWidth u :=
  (h.trans (le_max_left _ _)).trans_lt (c.max_lt_two_pow_lenWidth u)

theorem Caps.lt_two_pow_lenWidth_of_le_ocap {k : Nat} (h : k ≤ c.ocap u) : k < 2 ^ c.lenWidth u :=
  (h.trans (le_max_right _ _)).trans_lt (c.max_lt_two_pow_lenWidth u)

end Sys2Proof

namespace Sys2Proof.Safety

open Sys2Proof.Machine

/-- The invariant of the machine, read at either unit. -/
theorem Inv.unit {s : State} (h : Inv s) : ∀ u, UnitInv Config.caps u (s.unit u)
  | .enc => h.enc
  | .dec => h.dec

theorem UnitInv.ipos_le_icap {c : Caps} {u : UnitId} {x : CodecUnit} (h : UnitInv c u x) : x.ipos ≤ c.icap u :=
  h.iposInMessage.trans h.nInRange

/-- The output cursor is bounded by what the input cursor allows, and `x_OCAP` is that bound at `x_ICAP`
(rules R27, R158, R170). -/
theorem UnitInv.opos_le_ocap {c : Caps} {u : UnitId} {x : CodecUnit} (h : UnitInv c u x) : x.opos ≤ c.ocap u := by
  have hi := h.ipos_le_icap
  cases u with
  | enc =>
    obtain ⟨-, ho⟩ : EncCursors x := h.cursors
    calc x.opos = 4 * ((x.ipos + 2) / 3) := ho
      _ ≤ 4 * ((c.eIcap + 2) / 3) := Nat.mul_le_mul_left 4 (Nat.div_le_div_right (Nat.add_le_add_right hi 2))
  | dec =>
    obtain ⟨-, ho⟩ : DecCursors x := h.cursors
    calc x.opos ≤ 3 * (x.ipos / 4) := ho
      _ ≤ 3 * (c.dIcap / 4) := Nat.mul_le_mul_left 3 (Nat.div_le_div_right hi)

/-- Settles O5: `x_ILEN`, `x_N` and `x_IPOS` are at most `x_ICAP`, `x_OLEN` and `x_OPOS` at most `x_OCAP`. -/
theorem lengthsFitTheirRegisters : Obligations.LengthsFitTheirRegisters := by
  intro s u hs
  have hu := hs.unit u
  exact ⟨Caps.lt_two_pow_lenWidth_of_le_icap _ u hu.ilenInRange,
    Caps.lt_two_pow_lenWidth_of_le_ocap _ u hu.olenInRange,
    Caps.lt_two_pow_lenWidth_of_le_icap _ u hu.nInRange,
    Caps.lt_two_pow_lenWidth_of_le_icap _ u hu.ipos_le_icap,
    Caps.lt_two_pow_lenWidth_of_le_ocap _ u hu.opos_le_ocap⟩

end Sys2Proof.Safety
end

section
/-! SUPPORT. How a step is read: which move a turn, or the free choice with both units idle, makes of a state (rules R20 to
R22, R197), and what START is refused on (rules R78, R214). -/

namespace Sys2Proof.Machine

section StepOfTurn

variable {s : State} {ts : List Agent} {x : Input} {xs : List Input}

/-- All that a step at a unit's turn does when it answers: the unit step, and the turn is used. -/
theorem step_turn_eq_next {t : State} {u : UnitId} (ht : s.turns = .unit u :: ts) :
    step s = .next t ↔
      ∃ y, unitStep Config.caps u (s.unit u) = .next y ∧ (s.setTurns ts).setUnit u y = t := by
  simp [step_of_turn ht, andThen_eq_next]

/-- A turn of the host is its next move, on the state with the turn and the move taken. -/
theorem step_of_host_turn (ht : s.turns = .host :: ts) (hi : s.inputs = x :: xs) :
    step s = applyInput Config.caps x ((s.setTurns ts).setInputs xs) := by
  simp [step, stepWith, ht, agentStep, hostStep, hi]

/-- With no turn named and both units idle the host, if it has a move left, is the only agent to choose. -/
theorem step_of_host_choice (ht : s.turns = []) (he : s.enc.status.busy = false) (hd : s.dec.status.busy = false)
    (hi : s.inputs = x :: xs) : step s = applyInput Config.caps x (s.drawn.setInputs xs) := by
  have enabled : enabledAgents s = [.host] := by simp [enabledAgents, State.enabled, hi, he, hd]
  simp [step, stepWith, ht, freeStep, enabled, Nat.mod_one, agentStep, hostStep, hi]

/-- With no turn named and no agent enabled the run is over (rule R224). -/
theorem step_of_none_enabled (ht : s.turns = []) (h : enabledAgents s = []) : step s = .next s := by
  simp [step, stepWith, ht, freeStep, h]

end StepOfTurn

/-- An operand that decodes is its operation. -/
theorem applyInput_operand {p : Port} {bs : List Byte} {i : Instr} (h : decodeBytes p bs = .ok i) (c : Caps) (s : State) :
    applyInput c (.operand p bs) s = exec i s := by
  simp [applyInput, h, runDecoded]

/-- The write of 1 to register 0 of a unit is its command (rule R103). -/
theorem applyInput_start (c : Caps) (u : UnitId) (s : State) :
    applyInput c (.regWrite u 0 1) s = exec (commandOf u) s := rfl

/-- The command of a unit is its START (rules R30, R103). -/
theorem exec_commandOf (u : UnitId) (s : State) : exec (commandOf u) s = startUnit u s := by cases u <;> rfl

@[simp] theorem whenIdle_of_idle {u : UnitId} {s : State} (h : (s.unit u).status.busy = false)
    (o : Host.Outcome State Fault Refusal) : whenIdle u s o = o := by simp [whenIdle, h]

theorem messageWritten_of_messageOf {x : CodecUnit} {m : List Byte} (h : Safety.messageOf x = some m) :
    x.messageWritten = true := Option.isSome_of_eq_some h

/-- A message with a cell that holds no value is not written (rules R78, R214). -/
theorem messageWritten_eq_false {x : CodecUnit} {a : Nat} (ha : a < x.ilen) (hr : x.ibuf.read a = none) :
    x.messageWritten = false := by
  unfold CodecUnit.messageWritten
  cases h : readCells x.ibuf 0 x.ilen with
  | none => rfl
  | some bs =>
    obtain ⟨hlen, hcells⟩ := readCells_eq_some.mp h
    have hget : bs[a]? = none := by rw [← hcells a ha, Nat.zero_add, hr]
    have : bs.length ≤ a := List.getElem?_eq_none_iff.mp hget
    omega

/-- START of an idle unit over an unwritten message (rules R78, R214, log entry 19). -/
theorem startUnit_refused {u : UnitId} {s : State} (hb : (s.unit u).status.busy = false)
    (hm : (s.unit u).messageWritten = false) : startUnit u s = .refused .messageNotWritten := by
  simp [startUnit, hb, hm]

/-- Writes of different units do not meet (rule R21). -/
theorem setUnit_comm (s : State) (x y : CodecUnit) :
    ∀ {u v : UnitId}, v ≠ u → (s.setUnit u x).setUnit v y = (s.setUnit v y).setUnit u x
  | .enc, .dec, _ => rfl
  | .dec, .enc, _ => rfl
  | .enc, .enc, h => absurd rfl h
  | .dec, .dec, h => absurd rfl h

@[simp] theorem setTurns_setUnit (s : State) (u : UnitId) (x : CodecUnit) (ts : List Agent) :
    (s.setUnit u x).setTurns ts = (s.setTurns ts).setUnit u x := by cases u <;> rfl

end Sys2Proof.Machine
end

section
/-! SUPPORT. What a unit step does to its unit, said once for both units, and the frame of it (rules R64, R77, R160, R172). -/

namespace Sys2Proof.Machine

open Sys2Proof.Safety

/-- How many message cells a group of a unit takes and how many output cells it gives (rules R160, R172). -/
def GroupSize : UnitId → CodecUnit → Nat → Nat → Prop
  | .enc, x, read, written => read = groupCount x ∧ written = 4
  | .dec, _, read, written => read = 4 ∧ written ≤ 3

/-- What a unit step can do: nothing when idle; a group, inside the message and the output buffer; a completion; an error
completion, of `DEC` only. -/
inductive UnitEffect (c : Caps) (u : UnitId) (x : CodecUnit) : CodecUnit → Prop where
  | idle : UnitEffect c u x x
  | group (hb : x.status.busy = true) (hlt : x.ipos < x.n) (k : Nat) (bs : List Byte) (hsize : GroupSize u x k bs.length)
      (hmsg : x.ipos + k ≤ x.n) (hroom : x.opos + bs.length ≤ c.ocap u) :
      UnitEffect c u x (x.afterGroup (writeCells x.obuf x.opos bs) k bs.length)
  | success (hb : x.status.busy = true) : UnitEffect c u x x.atSuccess
  | error (hb : x.status.busy = true) (hu : u = .dec) (e : Err) : UnitEffect c u x (x.atError e)

theorem encUnitStep_effect {c : Caps} {x y : CodecUnit} (h : encUnitStep (c.ocap .enc) x = .next y) :
    UnitEffect c .enc x y := by
  rcases encUnitStep_cases h with ⟨-, rfl⟩ | ⟨hb, hlt, bs, q, hmsg, -, -, hroom, rfl⟩ | ⟨hb, -, rfl⟩
  · exact .idle
  · exact .group hb hlt _ (quadChars q) ⟨rfl, rfl⟩ hmsg hroom
  · exact .success hb

theorem decUnitStep_effect {c : Caps} {x y : CodecUnit} (h : decUnitStep (c.ocap .dec) x = .next y) :
    UnitEffect c .dec x y := by
  rcases decUnitStep_cases h with
    ⟨-, rfl⟩ | ⟨hb, -, rfl⟩ | ⟨hb, -, hlt, c0, c1, c2, c3, hmsg, -, hq⟩ | ⟨hb, -, -, rfl⟩
  · exact .idle
  · exact .error hb rfl _
  · rcases decQuad_cases hq with ⟨e, -, rfl⟩ | ⟨ys, -, -, -, rfl⟩ | ⟨ys, hys, -, hroom, rfl⟩
    · exact .error hb rfl e
    · exact .error hb rfl _
    · exact .group hb hlt 4 ys ⟨rfl, unpack_length_le hys⟩ hmsg hroom
  · exact .success hb

theorem unitStep_effect {c : Caps} {u : UnitId} {x y : CodecUnit} (h : unitStep c u x = .next y) :
    UnitEffect c u x y := by
  cases u with
  | enc => exact encUnitStep_effect h
  | dec => exact decUnitStep_effect h

section Frame

variable {c : Caps} {u : UnitId} {x y : CodecUnit}

/-- No unit step writes the lengths of the message or its cells (rule R77). -/
theorem UnitEffect.message_unchanged (h : UnitEffect c u x y) : y.ilen = x.ilen ∧ y.n = x.n ∧ y.ibuf = x.ibuf := by
  cases h <;> simp

/-- A unit step writes output cells only between the old and the new output cursor (rule R64). -/
theorem UnitEffect.read_obuf_outside (h : UnitEffect c u x y) {a : Nat} (ha : a < x.opos ∨ y.opos ≤ a) :
    y.obuf.read a = x.obuf.read a := by
  cases h with
  | idle => rfl
  | group _ _ k bs => exact read_writeCells_outside _ _ _ _ ha
  | success => rfl
  | error => rfl

/-- The output cursor stays, or moves on by what one group gives. -/
theorem UnitEffect.opos_cases (h : UnitEffect c u x y) :
    y.opos = x.opos ∨ ∃ k w, GroupSize u x k w ∧ y.opos = x.opos + w := by
  cases h with
  | idle => exact .inl rfl
  | group _ _ k bs hsize => exact .inr ⟨k, _, hsize, rfl⟩
  | success => exact .inl rfl
  | error => exact .inl rfl

/-- `ENC` never writes ERR (rule R183). -/
theorem UnitEffect.enc_err (h : UnitEffect c .enc x y) : y.status.err = x.status.err := by
  cases h with
  | idle => rfl
  | group => rfl
  | success => rfl
  | error _ hu => cases hu

end Frame

end Sys2Proof.Machine
end

section
/-! SUPPORT. The invariant of a unit through each effect of the host and of the unit step (rules R26 to R34, R60, R70, R78). -/

namespace Sys2Proof.Safety

open Sys2Proof.Machine

variable {c : Caps} {u : UnitId} {x y : CodecUnit}

/-- A running operation has shown no completion yet (rule R33). -/
theorem StatusLegal.of_busy {st : Status} (h : StatusLegal st) (hb : st.busy = true) :
    st.done = false ∧ st.err = none := by
  obtain ⟨hbusy, herr⟩ := h
  have hd : st.done = false := by simpa [hb] using hbusy
  exact ⟨hd, by simpa [hd] using herr⟩

theorem UnitInv.done_of_busy (h : UnitInv c u x) (hb : x.status.busy = true) : x.status.done = false :=
  (h.statusLegal.of_busy hb).1

theorem UnitInv.err_of_busy (h : UnitInv c u x) (hb : x.status.busy = true) : x.status.err = none :=
  (h.statusLegal.of_busy hb).2

/-- Where the cursors stand is a matter of N, IPOS and OPOS alone. -/
theorem Cursors.congr (h : Cursors u x) (hn : y.n = x.n) (hi : y.ipos = x.ipos) (ho : y.opos = x.opos) : Cursors u y := by
  cases u <;> simpa [Cursors, EncCursors, DecCursors, hn, hi, ho] using h

/-- Both cursors at 0 stand on a group boundary. -/
theorem cursors_zero (hi : x.ipos = 0) (ho : x.opos = 0) : Cursors u x := by
  cases u <;> simp [Cursors, EncCursors, DecCursors, hi, ho]

/-- A group takes the cursors from one boundary to the next (rules R26, R27, R70). -/
theorem Cursors.afterGroup {k w : Nat} (hc : Cursors u x) (h : GroupSize u x k w) (m : Memory) (hlt : x.ipos < x.n) :
    Cursors u (x.afterGroup m k w) := by
  cases u with
  | enc =>
    obtain ⟨rfl, rfl⟩ := h
    obtain ⟨hi, ho⟩ : EncCursors x := hc
    have hi : x.ipos % 3 = 0 := by omega
    simp only [Cursors, EncCursors, afterGroup_ipos, afterGroup_opos, afterGroup_n, groupCount]
    omega
  | dec =>
    obtain ⟨rfl, hw⟩ := h
    obtain ⟨hi, ho⟩ : DecCursors x := hc
    simp only [Cursors, DecCursors, afterGroup_ipos, afterGroup_opos]
    omega

theorem UnitInv.reset : UnitInv c u CodecUnit.reset := by
  constructor <;> simp [CodecUnit.reset, StatusLegal, cursors_zero, resultOf]

theorem UnitInv.atStart (h : UnitInv c u x) (hm : x.messageWritten = true) : UnitInv c u x.atStart :=
  { h with
    statusLegal := by simp [StatusLegal]
    encNoError := fun _ => rfl
    olenInRange := Nat.zero_le _
    nInRange := h.ilenInRange
    iposInMessage := Nat.zero_le _
    cursors := cursors_zero rfl rfl
    messageWritten := fun _ => hm
    outputWritten := fun _ => rfl
    resultWritten := by simp
    noResultLength := fun _ => rfl }

theorem UnitInv.setIlen (h : UnitInv c u x) {n : Nat} (hn : n ≤ c.icap u) : UnitInv c u { x with ilen := n } :=
  { h with
    ilenInRange := hn
    cursors := h.cursors.congr rfl rfl rfl }

theorem UnitInv.writeCell (h : UnitInv c u x) (hb : x.status.busy = false) {a : Nat} (ha : a < c.icap u) (v : Byte) :
    UnitInv c u { x with ibuf := x.ibuf.write a v } :=
  { h with
    cursors := h.cursors.congr rfl rfl rfl
    ibufWf := write_wf h.ibufWf a v
    ibufInSpace := fun cell hc => by
      rcases mem_write hc with rfl | hc
      · exact ha
      · exact h.ibufInSpace cell hc
    messageWritten := by simp [hb] }

theorem UnitInv.afterGroup (h : UnitInv c u x) (hb : x.status.busy = true) (hlt : x.ipos < x.n) {k : Nat} {bs : List Byte}
    (hsize : GroupSize u x k bs.length) (hmsg : x.ipos + k ≤ x.n) (hroom : x.opos + bs.length ≤ c.ocap u) :
    UnitInv c u (x.afterGroup (writeCells x.obuf x.opos bs) k bs.length) :=
  { h with
    iposInMessage := hmsg
    cursors := h.cursors.afterGroup hsize _ hlt
    obufWf := writeCells_wf h.obufWf _ _
    obufInSpace := fun cell hc => by
      rcases mem_writeCells hc with ⟨-, hin⟩ | hc
      · exact hin.trans_le hroom
      · exact h.obufInSpace cell hc
    outputWritten := fun _ => by
      obtain ⟨ds, hds⟩ := Option.isSome_iff_exists.mp (h.outputWritten hb)
      exact Option.isSome_of_eq_some (readCells_extend _ _ _ bs hds)
    resultWritten := by simp [h.done_of_busy hb] }

/-- What was written so far becomes the result (rules R160, R172). -/
theorem UnitInv.atSuccess (h : UnitInv c u x) (hb : x.status.busy = true) : UnitInv c u x.atSuccess :=
  { h with
    statusLegal := by simp [StatusLegal]
    olenInRange := h.opos_le_ocap
    cursors := h.cursors.congr rfl rfl rfl
    messageWritten := by simp
    outputWritten := by simp
    resultWritten := fun _ => h.outputWritten hb
    noResultLength := by simp [h.err_of_busy hb] }

theorem UnitInv.atError (h : UnitInv c u x) (hu : u = .dec) (e : Err) : UnitInv c u (x.atError e) :=
  { h with
    statusLegal := by simp [StatusLegal]
    encNoError := by simp [hu]
    olenInRange := Nat.zero_le _
    cursors := h.cursors.congr rfl rfl rfl
    messageWritten := by simp
    outputWritten := by simp
    resultWritten := fun _ => rfl
    noResultLength := fun _ => rfl }

theorem UnitInv.of_hostEffect (h : UnitInv c u x) (he : HostEffect c u x y) : UnitInv c u y := by
  cases he with
  | none => exact h
  | start _ hm => exact h.atStart hm
  | length _ n hn => exact h.setIlen hn
  | cell hb a ha v => exact h.writeCell hb ha v
  | reset => exact .reset

theorem UnitInv.of_unitEffect (h : UnitInv c u x) (he : UnitEffect c u x y) : UnitInv c u y := by
  cases he with
  | idle => exact h
  | group hb hlt k bs hsize hmsg hroom => exact h.afterGroup hb hlt hsize hmsg hroom
  | success hb => exact h.atSuccess hb
  | error _ hu e => exact h.atError hu e

/-- A step keeps the invariant of each unit: it is that unit's step, or an effect of the host's. -/
theorem UnitInv.of_stepWith {s t : State} (h : UnitInv c u (s.unit u)) (hst : stepWith c s = .next t) :
    UnitInv c u (t.unit u) := by
  rcases stepWith_unit hst u with hu | hh
  · exact h.of_unitEffect (unitStep_effect hu)
  · exact h.of_hostEffect hh

/-- Settles O3: both units keep their part of the invariant. -/
theorem stepKeepsTheInvariant : Obligations.StepKeepsTheInvariant := by
  intro s t hs hst
  exact ⟨(hs.unit .enc).of_stepWith hst, (hs.unit .dec).of_stepWith hst⟩

/-- Settles O2. -/
theorem resetMeetsTheInvariant : Obligations.ResetMeetsTheInvariant := ⟨.reset, .reset⟩

end Sys2Proof.Safety
end

section
/-! SUPPORT. The values `x_STATUS` can show (rules R31, R33, R180). -/

namespace Sys2Proof.Safety

open Sys2Proof.Machine

theorem errCode_eq_zero_iff {e : Option Err} : errCode e = 0b00#2 ↔ e = none := by
  rcases e with _ | _ | _ <;> decide

theorem errCode_ne_three (e : Option Err) : errCode e ≠ 0b11#2 := by
  rcases e with _ | _ | _ <;> decide

/-- Without an error the legal values of `x_STATUS` are three. -/
theorem StatusLegal.statusWord_mem_of_no_error {st : Status} (h : StatusLegal st) (he : st.err = none) :
    statusWord st ∈ [0b0000#4, 0b0001#4, 0b0010#4] := by
  obtain ⟨busy, done, err⟩ := st
  subst he
  cases busy with
  | true =>
    obtain rfl : done = false := (h.of_busy rfl).1
    decide
  | false => cases done <;> decide

/-- An error adds the two values with DONE 1 and its code. -/
theorem StatusLegal.statusWord_mem {st : Status} (h : StatusLegal st) :
    statusWord st ∈ [0b0000#4, 0b0001#4, 0b0010#4, 0b0110#4, 0b1010#4] := by
  cases he : st.err with
  | none => exact List.mem_append_left [0b0110#4, 0b1010#4] (h.statusWord_mem_of_no_error he)
  | some e =>
    obtain ⟨hbusy, herr⟩ := h
    have hd : st.done = true := herr (by simp [he])
    have hb : st.busy = false := by simpa [hd] using hbusy
    simp only [statusWord, he, hd, hb]
    cases e <;> decide

/-- Settles O4: the invariant, which holds at reset and is kept, fixes what both registers show. -/
theorem statusTakesOnlyLegalValues : Obligations.StatusTakesOnlyLegalValues := by
  unfold Obligations.StatusTakesOnlyLegalValues
  intro legal
  have legal_of_inv : ∀ s, Inv s → legal s := by
    intro s hs
    have henc : s.enc.status.err = none := hs.enc.encNoError rfl
    refine ⟨fun u => ?_, errCode_eq_zero_iff.mpr henc, hs.enc.statusLegal.statusWord_mem_of_no_error henc,
      hs.dec.statusLegal.statusWord_mem⟩
    obtain ⟨hbusy, herr⟩ := (hs.unit u).statusLegal
    exact ⟨hbusy, fun h => herr (mt errCode_eq_zero_iff.mpr h), errCode_ne_three _⟩
  exact ⟨legal_of_inv _ resetMeetsTheInvariant, fun s t hs hst => legal_of_inv t (stepKeepsTheInvariant s t hs hst)⟩

/-- Settles O51: the register is a concatenation of the three fields, checked at each of its twelve contents. -/
theorem statusFieldLayout : Obligations.StatusFieldLayout := by
  refine ⟨fun ⟨busy, done, err⟩ => ?_, rfl, rfl, rfl⟩
  rcases err with _ | _ | _ <;> cases busy <;> cases done <;> decide

end Sys2Proof.Safety
end

section
/-! SUPPORT. The frames of the unit steps and of the commands (rules R21, R30, R64, R77). -/

namespace Sys2Proof.Machine

/-- Settles O34: the step is `ENC`'s unit step, whose group gives 4 characters. -/
theorem encoderStepFrame : Obligations.EncoderStepFrame := by
  intro s t ts ht h
  obtain ⟨y, hy, rfl⟩ := (step_turn_eq_next ht).mp h
  have effect : UnitEffect Config.caps .enc s.enc y := unitStep_effect hy
  obtain ⟨hilen, hn, hibuf⟩ := effect.message_unchanged
  have hopos : y.opos = s.enc.opos ∨ y.opos = s.enc.opos + 4 := by
    rcases effect.opos_cases with h | ⟨k, w, ⟨-, rfl⟩, h⟩
    · exact .inl h
    · exact .inr h
  exact ⟨rfl, rfl, rfl, rfl, rfl, hilen, hn, hibuf, effect.enc_err, hopos, fun a ha => effect.read_obuf_outside ha⟩

/-- Settles O35: the step is `DEC`'s unit step, whose group gives at most 3 bytes. -/
theorem decoderStepFrame : Obligations.DecoderStepFrame := by
  intro s t ts ht h
  obtain ⟨y, hy, rfl⟩ := (step_turn_eq_next ht).mp h
  have effect : UnitEffect Config.caps .dec s.dec y := unitStep_effect hy
  obtain ⟨hilen, hn, hibuf⟩ := effect.message_unchanged
  have hopos : s.dec.opos ≤ y.opos ∧ y.opos ≤ s.dec.opos + 3 := by
    rcases effect.opos_cases with h | ⟨k, w, ⟨-, hw⟩, h⟩ <;> omega
  exact ⟨rfl, rfl, rfl, rfl, rfl, hilen, hn, hibuf, hopos.1, hopos.2, fun a ha => effect.read_obuf_outside ha⟩

/-- Settles O37: the step reads and writes its own unit only, and writes of different units commute. -/
theorem unitsShareNothing : Obligations.UnitsShareNothing := by
  intro s t u v x ts hvu ht h
  obtain ⟨y, hy, rfl⟩ := (step_turn_eq_next ht).mp h
  refine ⟨by rw [unit_setUnit_other _ _ hvu, unit_setTurns],
    (step_turn_eq_next (by rw [setUnit_turns, ht])).mpr ⟨y, ?_, ?_⟩⟩
  · rwa [unit_setUnit_other _ _ hvu.symm]
  · rw [setTurns_setUnit, setUnit_comm _ _ _ hvu]

/-- Settles O36: the command is the START of its unit, which writes five registers of that unit. -/
theorem commandFrame : Obligations.CommandFrame := by
  intro s t
  constructor
  · intro h
    obtain ⟨-, -, rfl⟩ := startUnit_eq_next.mp ((exec_commandOf .enc s).symm.trans h)
    simp
  · intro h
    obtain ⟨-, -, rfl⟩ := startUnit_eq_next.mp ((exec_commandOf .dec s).symm.trans h)
    simp

end Sys2Proof.Machine
end

section
/-! SUPPORT. The step at each kind of turn, the leaf operations, START, the reset table and the register accesses of an idle
unit (rules R22, R29 to R34, R41, R103, R217). -/

namespace Sys2Proof.Machine

/-- Settles O1. -/
theorem resetLeavesTheTable : Obligations.ResetLeavesTheTable := by
  intro u
  have hunit : State.reset.unit u = CodecUnit.reset := by cases u <;> rfl
  rw [hunit]
  refine ⟨by decide, rfl, rfl, rfl, rfl, rfl, fun a => ⟨read_nil a, read_nil a⟩, ?_⟩
  exact whenIdle_of_idle (by rw [hunit]; rfl) _

/-- Settles O10: the host moves, by its turn or as the only agent enabled, and its operand is its operation. -/
theorem stepRunsTheDecodedWord : Obligations.StepRunsTheDecodedWord := by
  intro s p bs i rest hi hin
  refine ⟨fun ts ht => ?_, fun ht he hd => ?_⟩
  · rw [step_of_host_turn ht hin, applyInput_operand hi]
  · rw [step_of_host_choice ht he hd hin, applyInput_operand hi]

/-- Settles O11. -/
theorem stepRunsTheStartWrite : Obligations.StepRunsTheStartWrite := by
  intro s rest ts ht
  refine ⟨fun hin => ?_, fun hin => ?_⟩
  · rw [step_of_host_turn ht hin, applyInput_start, commandOf]
  · rw [step_of_host_turn ht hin, applyInput_start, commandOf]

/-- Settles O12: an idle unit's step gives the unit back, and with no move left and both units idle no agent is enabled. -/
theorem idleAgentsChangeNothing : Obligations.IdleAgentsChangeNothing := by
  refine ⟨fun s u ts ht hb => ?_, fun s ht hi he hd => step_of_none_enabled ht ?_⟩
  · refine (step_turn_eq_next ht).mpr ⟨s.unit u, unitStep_idle hb, ?_⟩
    rw [← unit_setTurns s ts u, setUnit_self]
  · simp [enabledAgents, State.enabled, hi, he, hd]

/-- Settles O26: each leaf operation's arm is one reply made from its operand alone. -/
theorem leafOperationsOnlyReply : Obligations.LeafOperationsOnlyReply := by
  intro i s he hd
  cases i with
  | encode => exact absurd rfl he
  | decode => exact absurd rfl hd
  | _ => exact ⟨_, rfl, fun _ => rfl⟩

/-- Settles O27: the message decides whether the START of an idle unit is accepted. -/
theorem startIsOneIndivisibleStep : Obligations.StartIsOneIndivisibleStep := by
  refine ⟨fun s m hb hm => ?_, fun s m hb hm => ?_, fun s u a hb ha hr => ?_, fun s u => rfl⟩
  · exact startUnit_eq_next.mpr ⟨hb, messageWritten_of_messageOf hm, rfl⟩
  · exact startUnit_eq_next.mpr ⟨hb, messageWritten_of_messageOf hm, rfl⟩
  · rw [exec_commandOf]
    exact startUnit_refused hb (messageWritten_eq_false ha hr)

/-- Settles O53: each access is one that `whenIdle` lets through. -/
theorem idleRegisterAccesses : Obligations.IdleRegisterAccesses := by
  intro s u d hb
  have through := whenIdle_of_idle (s := s) (u := u) hb
  exact ⟨through _, through _, through _, through _, through _⟩

/-- Settles O54: the access is let through, and the capacity decides. -/
theorem lengthWriteUpToCapacity : Obligations.LengthWriteUpToCapacity := by
  intro s u d hb
  have write : applyInput Config.caps (.regWrite u 2 d) s = writeLength Config.caps u d s := whenIdle_of_idle hb _
  rw [write]
  exact ⟨fun hd => if_neg (Nat.not_lt.mpr hd), fun hd => if_pos hd⟩

end Sys2Proof.Machine
end

section
/-! SUPPORT. MemRead and MemWrite inside their space (rules R63, R64, R78), and the host's accesses to the cells of an idle
unit (rules R60, R62, R75, R81, R217, R219). -/

namespace Sys2Proof.Machine

/-- A run with a cell that holds no value has no values (rule R78). -/
theorem readCells_eq_none {m : Memory} {a n k : Nat} (hk : k < n) (hr : m.read (a + k) = none) :
    readCells m a n = none := by
  refine Option.eq_none_iff_forall_ne_some.mpr fun bs h => ?_
  obtain ⟨hlen, hcells⟩ := readCells_eq_some.mp h
  have : bs.length ≤ k := List.getElem?_eq_none_iff.mp (by rw [← hcells k hk, hr])
  omega

/-- MemRead of a run inside the message with a cell that holds no value (rules R63, R78). -/
theorem memRead_refused {limit a n k : Nat} {m : Memory} (hl : a + n ≤ limit) (hk : k < n)
    (hr : m.read (a + k) = none) : memRead limit m a n = .refused .cellNeverWritten := by
  simp [memRead, Nat.not_lt.mpr hl, readCells_eq_none hk hr]

/-- Settles O49. -/
theorem memWriteSetsItsRunOnly : Obligations.MemWriteSetsItsRunOnly := by
  intro cap m a bs hcap
  exact ⟨writeCells m a bs, memWrite_eq_next.mpr ⟨hcap, rfl⟩, fun k hk => read_writeCells_inside m a k bs hk,
    fun a' ha => read_writeCells_outside m a a' bs ha, fun hm => writeCells_wf hm a bs⟩

/-- Settles O50: inside the message MemRead answers what the run of cells holds. -/
theorem memReadGivesItsCells : Obligations.MemReadGivesItsCells := by
  intro limit m a n hl
  refine ⟨fun bs => ?_, fun ⟨k, hk, hr⟩ => memRead_refused hl hk hr⟩
  rw [memRead_eq_next, readCells_eq_some]
  exact and_iff_right hl

section HostCellAccess

variable {c : Caps} {u : UnitId} {s : State} {a : Nat} {v : Byte}

theorem applyInput_bufWrite (hb : (s.unit u).status.busy = false) (ha : a < c.icap u) :
    applyInput c (.bufWrite u a v) s = .next (s.setUnit u { s.unit u with ibuf := (s.unit u).ibuf.write a v }) := by
  simp [applyInput, bufWrite, hb, Nat.not_le.mpr ha]

theorem applyInput_bufWrite_noSuchCell (hb : (s.unit u).status.busy = false) (ha : c.icap u ≤ a) :
    applyInput c (.bufWrite u a v) s = .refused .noSuchCell := by
  simp [applyInput, bufWrite, hb, ha]

/-- After a completion the host's read of a cell of the buffer goes to the cell. -/
theorem applyInput_bufRead (hb : (s.unit u).status.busy = false) (hd : (s.unit u).status.done = true)
    (ha : a < c.ocap u) (hr : (s.unit u).obuf.read a = some v) :
    applyInput c (.bufRead u a) s = .next (readResultCell u a v s) := by
  simp [applyInput, bufRead, hb, hd, Nat.not_le.mpr ha, hr]

theorem applyInput_bufRead_refused (hb : (s.unit u).status.busy = false) (hd : (s.unit u).status.done = true)
    (ha : a < c.ocap u) (hr : (s.unit u).obuf.read a = none) :
    applyInput c (.bufRead u a) s = .refused .cellNeverWritten := by
  simp [applyInput, bufRead, hb, hd, Nat.not_le.mpr ha, hr]

theorem readResultCell_inside (ha : a < (s.unit u).olen) (he : (s.unit u).status.err = none) :
    readResultCell u a v s = s.reply (.cell u a v) := if_pos ⟨ha, he⟩

theorem readResultCell_outside (h : (s.unit u).olen ≤ a ∨ (s.unit u).status.err ≠ none) :
    readResultCell u a v s = (s.reply (.cell u a (Config.freeByte s.tick))).drawn := by
  refine if_neg fun ⟨ha, he⟩ => ?_
  rcases h with h | h
  · exact Nat.not_lt.mpr h ha
  · exact h he

end HostCellAccess

/-- Settles O55: the access is let through, the capacity decides, and the new buffer is one `Memory.write`. -/
theorem cellWriteChangesOneCell : Obligations.CellWriteChangesOneCell := by
  intro s u a v hb
  exact ⟨fun ha => ⟨_, applyInput_bufWrite hb ha, read_write_same _ a v, fun _ hne => read_write_other _ v hne⟩,
    fun ha => applyInput_bufWrite_noSuchCell hb ha⟩

/-- Settles O57. -/
theorem cellsOutsideTheResult : Obligations.CellsOutsideTheResult := by
  intro s u a hb hd ha
  refine ⟨fun v hr hout => ?_, fun hr => applyInput_bufRead_refused hb hd ha hr⟩
  rw [applyInput_bufRead hb hd ha hr, readResultCell_outside hout]

end Sys2Proof.Machine

namespace Sys2Proof.Safety

open Sys2Proof.Machine

section CompletedUnit

variable {c : Caps} {u : UnitId} {x : CodecUnit}

/-- A unit that has completed is idle (rule R33). -/
theorem UnitInv.idle_of_done (h : UnitInv c u x) (hd : x.status.done = true) : x.status.busy = false := by
  obtain ⟨hbusy, -⟩ := h.statusLegal
  simpa [hd] using hbusy

/-- After a completion every cell below `x_OLEN` holds a value (rules R162, R173). -/
theorem UnitInv.resultCell_written (h : UnitInv c u x) (hd : x.status.done = true) {a : Nat} (ha : a < x.olen) :
    ∃ v, x.obuf.read a = some v := by
  obtain ⟨bs, hbs⟩ := Option.isSome_iff_exists.mp (h.resultWritten hd)
  obtain ⟨hlen, hcells⟩ := readCells_eq_some.mp hbs
  have hget : x.obuf.read a = bs[a]? := by simpa using hcells a ha
  exact ⟨bs[a], hget.trans (List.getElem?_eq_getElem (hlen ▸ ha))⟩

end CompletedUnit

/-- Settles O56: the invariant has the cell written, inside the buffer, and the unit idle. -/
theorem resultCellsAreReadable : Obligations.ResultCellsAreReadable := by
  intro s u a hs hd he ha
  have hu := hs.unit u
  obtain ⟨v, hr⟩ := hu.resultCell_written hd ha
  refine ⟨v, hr, ?_⟩
  rw [applyInput_bufRead (hu.idle_of_done hd) hd (ha.trans_le hu.olenInRange) hr, readResultCell_inside ha he]

end Sys2Proof.Safety
end

section
/-! SUPPORT. What a busy unit's step gives, branch by branch (rules R160, R172), and that under the invariant it always gives
a next state, nearer the end of the operation (rules R61, R63, R64, R78, R221). -/

namespace Sys2Proof.Machine

section UnitStepBranches

variable {cap : Nat} {x : CodecUnit}

theorem encUnitStep_group {bs : List Byte} {q : SymbolQuad} (hb : x.status.busy = true) (hlt : x.ipos < x.n)
    (hr : readCells x.ibuf x.ipos (groupCount x) = some bs) (hq : packSeq bs = some q) (hroom : x.opos + 4 ≤ cap) :
    encUnitStep cap x = .next (x.afterGroup (writeCells x.obuf x.opos (quadChars q)) (groupCount x) 4) := by
  have hmsg : x.ipos + groupCount x ≤ x.n := by
    unfold groupCount
    omega
  have hread := memRead_eq_next.mpr ⟨hmsg, hr⟩
  have hwrite : memWrite cap x.obuf x.opos (quadChars q) = .next _ := memWrite_eq_next.mpr ⟨hroom, rfl⟩
  simp [encUnitStep, hb, hlt, encGroup, hread, packGroup, hq, hwrite]

theorem encUnitStep_completion (hb : x.status.busy = true) (hle : x.n ≤ x.ipos) :
    encUnitStep cap x = .next x.atSuccess := by
  simp [encUnitStep, hb, Nat.not_lt.mpr hle]

theorem decUnitStep_badLength (hb : x.status.busy = true) (hn : x.n % 4 ≠ 0) :
    decUnitStep cap x = .next (x.atError .invalidLength) := by
  simp [decUnitStep, hb, hn]

/-- A quad inside the message goes to the unpacker, and what follows is up to the unpacker's result. -/
theorem decUnitStep_quad {c0 c1 c2 c3 : Byte} (hb : x.status.busy = true) (hn : x.n % 4 = 0) (hmsg : x.ipos + 4 ≤ x.n)
    (hr : readCells x.ibuf x.ipos 4 = some [c0, c1, c2, c3]) :
    decUnitStep cap x = decQuad cap x (unpack c0 c1 c2 c3) := by
  have hread := memRead_eq_next.mpr ⟨hmsg, hr⟩
  simp [decUnitStep, hb, hn, show x.ipos < x.n by omega, decGroup, hread, unpackSeq]

theorem decUnitStep_completion (hb : x.status.busy = true) (hn : x.n % 4 = 0) (hle : x.n ≤ x.ipos) :
    decUnitStep cap x = .next x.atSuccess := by
  simp [decUnitStep, hb, hn, Nat.not_lt.mpr hle]

/-- With room for the bytes, whatever the unpacker's result, the quad has a next state. -/
theorem decQuad_next {r : Result (List Byte)} (hroom : ∀ ys, r = .ok ys → x.opos + ys.length ≤ cap) :
    ∃ y, decQuad cap x r = .next y := by
  cases r with
  | fail e => exact ⟨_, rfl⟩
  | ok ys =>
    have hwrite : memWrite cap x.obuf x.opos ys = .next _ := memWrite_eq_next.mpr ⟨hroom ys rfl, rfl⟩
    unfold decQuad
    simp only [hwrite, andThen_next]
    split
    · exact ⟨_, rfl⟩
    · exact ⟨_, rfl⟩

end UnitStepBranches

end Sys2Proof.Machine

namespace Sys2Proof.Safety

open Sys2Proof.Machine

section Progress

variable {c : Caps} {u : UnitId} {x y : CodecUnit}

/-- A run inside the message of a running operation holds values (rules R78, R214). -/
theorem UnitInv.messageRun_written (h : UnitInv c u x) (hb : x.status.busy = true) {a k : Nat} (hk : a + k ≤ x.n) :
    ∃ bs, readCells x.ibuf a k = some bs ∧ bs.length = k := by
  obtain ⟨m, hm⟩ := Option.isSome_iff_exists.mp (h.messageWritten hb)
  have hrun := readCells_sub hm hk
  exact ⟨_, hrun, readCells_length hrun⟩

/-- The output of the next group has room in the buffer (rules R64, R158, R170). -/
theorem UnitInv.group_fits (h : UnitInv c u x) {k w : Nat} (hsize : GroupSize u x k w) (hlt : x.ipos < x.n)
    (hmsg : x.ipos + k ≤ x.n) : x.opos + w ≤ c.ocap u := by
  cases u with
  | enc =>
    obtain ⟨-, rfl⟩ := hsize
    obtain ⟨hi, ho⟩ : EncCursors x := h.cursors
    have hn : x.n ≤ c.eIcap := h.nInRange
    show x.opos + 4 ≤ 4 * ((c.eIcap + 2) / 3)
    omega
  | dec =>
    obtain ⟨rfl, hw⟩ := hsize
    obtain ⟨hi, ho⟩ : DecCursors x := h.cursors
    have hn : x.n ≤ c.dIcap := h.nInRange
    show x.opos + w ≤ 3 * (c.dIcap / 4)
    omega

theorem UnitInv.encUnitStep_next (h : UnitInv c .enc x) (hb : x.status.busy = true) :
    ∃ y, encUnitStep (c.ocap .enc) x = .next y := by
  by_cases hlt : x.ipos < x.n
  · have hk : 0 < groupCount x ∧ groupCount x ≤ 3 ∧ x.ipos + groupCount x ≤ x.n := by
      unfold groupCount
      omega
    obtain ⟨hpos, hle, hmsg⟩ := hk
    obtain ⟨bs, hr, hlen⟩ := h.messageRun_written hb hmsg
    obtain ⟨q, hq, -⟩ := packSeq_encode (hlen ▸ hpos) (hlen ▸ hle)
    exact ⟨_, encUnitStep_group hb hlt hr hq (h.group_fits ⟨rfl, rfl⟩ hlt hmsg)⟩
  · exact ⟨_, encUnitStep_completion hb (Nat.not_lt.mp hlt)⟩

theorem UnitInv.decUnitStep_next (h : UnitInv c .dec x) (hb : x.status.busy = true) :
    ∃ y, decUnitStep (c.ocap .dec) x = .next y := by
  by_cases hn : x.n % 4 = 0
  · by_cases hlt : x.ipos < x.n
    · obtain ⟨hi, -⟩ : DecCursors x := h.cursors
      have hmsg : x.ipos + 4 ≤ x.n := by omega
      obtain ⟨bs, hr, hlen⟩ := h.messageRun_written hb hmsg
      obtain ⟨c0, c1, c2, c3, rfl⟩ := List.length_eq_four.mp hlen
      rw [decUnitStep_quad hb hn hmsg hr]
      exact decQuad_next fun ys hys => h.group_fits ⟨rfl, unpack_length_le hys⟩ hlt hmsg
    · exact ⟨_, decUnitStep_completion hb hn (Nat.not_lt.mp hlt)⟩
  · exact ⟨_, decUnitStep_badLength hb hn⟩

/-- Under the invariant a unit's step neither faults nor is refused. -/
theorem UnitInv.unitStep_next (h : UnitInv c u x) : ∃ y, unitStep c u x = .next y := by
  cases hb : x.status.busy with
  | false => exact ⟨x, unitStep_idle hb⟩
  | true =>
    cases u with
    | enc => exact h.encUnitStep_next hb
    | dec => exact h.decUnitStep_next hb

theorem stepsLeft_of_idle (hb : x.status.busy = false) : stepsLeft u x = 0 := if_pos hb

theorem stepsLeft_enc_of_busy (hb : x.status.busy = true) : stepsLeft .enc x = (x.n - x.ipos + 2) / 3 + 1 := by
  simp [stepsLeft, hb]

theorem stepsLeft_dec_of_busy (hb : x.status.busy = true) (hn : x.n % 4 = 0) :
    stepsLeft .dec x = (x.n - x.ipos) / 4 + 1 := by
  simp [stepsLeft, hb, hn]

/-- A running operation has its completion still to come. -/
theorem stepsLeft_pos_of_busy (hb : x.status.busy = true) : 0 < stepsLeft u x := by
  cases u with
  | enc => simp [stepsLeft, hb]
  | dec => by_cases hn : x.n % 4 = 0 <;> simp [stepsLeft, hb, hn]

/-- A completion, with an error or without, leaves no step. -/
theorem stepsLeft_lt_of_idle (hx : x.status.busy = true) (hy : y.status.busy = false) :
    stepsLeft u y < stepsLeft u x := (stepsLeft_of_idle hy).symm ▸ stepsLeft_pos_of_busy hx

theorem encUnitStep_stepsLeft_lt {cap : Nat} (hb : x.status.busy = true) (h : encUnitStep cap x = .next y) :
    stepsLeft .enc y < stepsLeft .enc x := by
  rcases encUnitStep_cases h with ⟨hidle, -⟩ | ⟨-, hlt, bs, q, -, -, -, -, rfl⟩ | ⟨-, -, rfl⟩
  · simp [hb] at hidle
  · simp only [stepsLeft_enc_of_busy, afterGroup_status, hb, afterGroup_n, afterGroup_ipos, groupCount]
    omega
  · exact stepsLeft_lt_of_idle hb rfl

theorem decUnitStep_stepsLeft_lt {cap : Nat} (hb : x.status.busy = true) (h : decUnitStep cap x = .next y) :
    stepsLeft .dec y < stepsLeft .dec x := by
  rcases decUnitStep_cases h with
    ⟨hidle, -⟩ | ⟨-, -, rfl⟩ | ⟨-, hn, hlt, c0, c1, c2, c3, hmsg, -, hq⟩ | ⟨-, -, -, rfl⟩
  · simp [hb] at hidle
  · exact stepsLeft_lt_of_idle hb rfl
  · rcases decQuad_cases hq with ⟨e, -, rfl⟩ | ⟨ys, -, -, -, rfl⟩ | ⟨ys, -, -, -, rfl⟩
    · exact stepsLeft_lt_of_idle hb rfl
    · exact stepsLeft_lt_of_idle hb rfl
    · simp only [stepsLeft_dec_of_busy, afterGroup_status, hb, afterGroup_n, hn, afterGroup_ipos]
      omega
  · exact stepsLeft_lt_of_idle hb rfl

theorem unitStep_stepsLeft_lt (hb : x.status.busy = true) (h : unitStep c u x = .next y) :
    stepsLeft u y < stepsLeft u x := by
  cases u with
  | enc => exact encUnitStep_stepsLeft_lt hb h
  | dec => exact decUnitStep_stepsLeft_lt hb h

end Progress

/-- Settles O38: the unit step has a next state, and each of its branches takes a step off the count. -/
theorem busyUnitMakesProgress : Obligations.BusyUnitMakesProgress := by
  intro s u ts hs hb ht
  obtain ⟨y, hy⟩ := (hs.unit u).unitStep_next
  refine ⟨_, (step_turn_eq_next ht).mpr ⟨y, hy, rfl⟩, ?_⟩
  rw [unit_setUnit_same]
  exact unitStep_stepsLeft_lt hb hy

end Sys2Proof.Safety
end

section
/-! SUPPORT. No step faults: no move of the host or the reset can, and a unit's step cannot under the invariant (rules R61,
R63, R64). -/

namespace Sys2Proof.Machine

variable {c : Caps} {s : State} {r : Fault}

theorem next_ne_fault {t : State} : (.next t : Host.Outcome State Fault Refusal) ≠ .fault r := nofun

theorem refused_ne_fault {q : Refusal} : (.refused q : Host.Outcome State Fault Refusal) ≠ .fault r := nofun

theorem whenIdle_no_fault {u : UnitId} {o : Host.Outcome State Fault Refusal} (h : o ≠ .fault r) :
    whenIdle u s o ≠ .fault r := by
  unfold whenIdle
  split
  · exact refused_ne_fault
  · exact h

theorem notAnOperation_no_fault (e : DecodeError) : notAnOperation e s ≠ .fault r := by
  cases e with
  | noOperation => exact next_ne_fault
  | _ => exact refused_ne_fault

theorem runDecoded_no_fault (d : Except DecodeError Instr) : runDecoded d s ≠ .fault r := by
  cases d with
  | ok i => exact exec_no_fault i s r
  | error e => exact notAnOperation_no_fault e

theorem writeLength_no_fault (u : UnitId) (data : Nat) : writeLength c u data s ≠ .fault r := by
  unfold writeLength
  split
  · exact refused_ne_fault
  · exact next_ne_fault

theorem regWrite_no_fault (u : UnitId) (reg data : Nat) : regWrite c u reg data s ≠ .fault r := by
  unfold regWrite
  split
  · exact runDecoded_no_fault _
  · exact whenIdle_no_fault next_ne_fault
  · exact whenIdle_no_fault (writeLength_no_fault u data)
  · exact whenIdle_no_fault next_ne_fault
  · exact refused_ne_fault

theorem regRead_no_fault (u : UnitId) (reg : Nat) : regRead u reg s ≠ .fault r := by
  unfold regRead
  split
  · exact whenIdle_no_fault next_ne_fault
  · exact next_ne_fault
  · exact whenIdle_no_fault next_ne_fault
  · exact whenIdle_no_fault next_ne_fault
  · exact refused_ne_fault

theorem bufWrite_no_fault (u : UnitId) (a : Nat) (v : Byte) : bufWrite c u a v s ≠ .fault r := by
  refine whenIdle_no_fault ?_
  split
  · exact refused_ne_fault
  · exact next_ne_fault

theorem bufRead_no_fault (u : UnitId) (a : Nat) : bufRead c u a s ≠ .fault r := by
  refine whenIdle_no_fault ?_
  split
  · exact refused_ne_fault
  · split
    · exact refused_ne_fault
    · split
      · exact next_ne_fault
      · exact refused_ne_fault

/-- A move from outside ends in a next state or a refusal. -/
theorem applyInput_no_fault (i : Input) : applyInput c i s ≠ .fault r := by
  cases i with
  | reset => exact next_ne_fault
  | regWrite u reg data => exact regWrite_no_fault u reg data
  | regRead u reg => exact regRead_no_fault u reg
  | bufWrite u a v => exact bufWrite_no_fault u a v
  | bufRead u a => exact bufRead_no_fault u a
  | wait u => exact next_ne_fault
  | result u => exact next_ne_fault
  | resultCells u => exact next_ne_fault
  | operand p bs => exact runDecoded_no_fault _

theorem hostStep_no_fault : hostStep c s ≠ .fault r := by
  unfold hostStep
  split
  · exact next_ne_fault
  · exact applyInput_no_fault _

end Sys2Proof.Machine

namespace Sys2Proof.Safety

open Sys2Proof.Machine

/-- No agent faults while both units meet their invariant. -/
theorem agentStep_no_fault {c : Caps} {s : State} (hs : ∀ u, UnitInv c u (s.unit u)) (who : Agent) (r : Fault) :
    agentStep c who s ≠ .fault r := by
  cases who with
  | host => exact hostStep_no_fault
  | unit u =>
    obtain ⟨y, hy⟩ := (hs u).unitStep_next
    simp [agentStep, hy]

/-- Settles O6: a step is some agent's move on a state with the same units. -/
theorem noStepFaults : Obligations.NoStepFaults := by
  intro s r hs h
  rcases stepWith_agent h with h | ⟨who, s', h, henc, hdec, -⟩
  · cases h
  · have hs' : Inv s' := ⟨henc ▸ hs.enc, hdec ▸ hs.dec⟩
    exact agentStep_no_fault hs'.unit who r h

end Sys2Proof.Safety
end

section
/-! SUPPORT. Operation words read back from their formats: the byte lanes of a word, the packer and unpacker forms, the word
and the bytes of each operation through the decoder, and what a decoded word is (rules R92, R95, R97, R101 to R104). -/

namespace Sys2Proof.Machine

theorem lane_toNat (w k : Nat) : (lane w k).toNat = w / 2 ^ (8 * k) % 256 := by
  simp [lane, Nat.shiftRight_eq_div_pow]

/-- A lane is the byte that stands in it. -/
theorem lane_eq {w k : Nat} {b : Byte} (h : w / 2 ^ (8 * k) % 256 = b.toNat) : lane w k = b :=
  BitVec.eq_of_toNat_eq ((lane_toNat w k).trans h)

/-- The decoder takes a packer word apart into its count and lanes (rule R95). -/
theorem decodeWord_tripletWord (n : BitVec 2) (b0 b1 b2 : Byte) :
    decodeWord .triplet (tripletWord n b0 b1 b2) = packForm n b0 b1 b2 := by
  have e := tripletWord_eq n b0 b1 b2
  have hn := n.isLt
  have h0 := b0.isLt
  have h1 := b1.isLt
  have h2 := b2.isLt
  have hcount : BitVec.ofNat 2 (tripletWord n b0 b1 b2 >>> 24) = n := by
    apply BitVec.eq_of_toNat_eq
    rw [BitVec.toNat_ofNat, Nat.shiftRight_eq_div_pow]
    omega
  rw [decodeWord, if_pos (by omega), hcount, lane_eq (b := b0) (by omega), lane_eq (b := b1) (by omega),
    lane_eq (b := b2) (by omega)]

/-- The decoder takes a quad word apart into its lanes (rule R97). -/
theorem decodeWord_quadWord (c0 c1 c2 c3 : Byte) :
    decodeWord .quad (quadWord c0 c1 c2 c3) = .ok (unpackForm c0 c1 c2 c3) := by
  have e := quadWord_eq c0 c1 c2 c3
  have h0 := c0.isLt
  have h1 := c1.isLt
  have h2 := c2.isLt
  have h3 := c3.isLt
  rw [decodeWord, if_pos (by omega), lane_eq (b := c0) (by omega), lane_eq (b := c1) (by omega),
    lane_eq (b := c2) (by omega), lane_eq (b := c3) (by omega)]

/-- A 32-bit word is the quad word of its lanes (rule R97). -/
theorem quadWord_lanes {w : Nat} (hw : w < 2 ^ 32) : quadWord (lane w 3) (lane w 2) (lane w 1) (lane w 0) = w := by
  simp only [quadWord_eq, lane_toNat]
  omega

/-- A symbol reads back from its wires (rule R92). -/
theorem symbolOfWires_wiresOfSymbol (sym : Symbol) : symbolOfWires (wiresOfSymbol sym) = sym := by
  cases sym with
  | data v => simp [symbolOfWires, wiresOfSymbol]
  | pad => rfl

section Forms

variable {n : BitVec 2} {b0 b1 b2 : Byte} {c0 c1 c2 c3 : Byte} {i : Instr}

/-- Whatever form the count selects is an operation of the packer, and every one is well formed (rules R101, R130). -/
theorem packForm_ok (h : packForm n b0 b1 b2 = .ok i) : i.wellFormed = true ∧ i.port = .triplet := by
  unfold packForm at h
  split_ifs at h
  all_goals
    cases h
    exact ⟨rfl, rfl⟩

theorem wellFormed_unpack3_iff : (Instr.unpack3 c0 c1 c2 c3).wellFormed = true ↔ c3 ≠ padCode := bne_iff_ne

theorem wellFormed_unpack2_iff : (Instr.unpack2 c0 c1 c2).wellFormed = true ↔ c2 ≠ padCode := bne_iff_ne

theorem unpackForm_unpack1 (c0 c1 : Byte) : unpackForm c0 c1 padCode padCode = .unpack1 c0 c1 := if_pos ⟨rfl, rfl⟩

theorem unpackForm_unpack2 (h2 : c2 ≠ padCode) : unpackForm c0 c1 c2 padCode = .unpack2 c0 c1 c2 :=
  (if_neg fun h => h2 h.1).trans (if_pos rfl)

theorem unpackForm_unpack3 (h3 : c3 ≠ padCode) : unpackForm c0 c1 c2 c3 = .unpack3 c0 c1 c2 c3 :=
  (if_neg fun h => h3 h.2).trans (if_neg h3)

/-- What the trailing pads of a quad select (rule R102): the three cases of the test, in its order. -/
theorem unpackForm_cases (c0 c1 c2 c3 : Byte) :
    (c2 = padCode ∧ c3 = padCode ∧ unpackForm c0 c1 c2 c3 = .unpack1 c0 c1) ∨
    (c2 ≠ padCode ∧ c3 = padCode ∧ unpackForm c0 c1 c2 c3 = .unpack2 c0 c1 c2) ∨
    (c3 ≠ padCode ∧ unpackForm c0 c1 c2 c3 = .unpack3 c0 c1 c2 c3) := by
  by_cases h3 : c3 = padCode
  · subst h3
    by_cases h2 : c2 = padCode
    · subst h2
      exact .inl ⟨rfl, rfl, unpackForm_unpack1 c0 c1⟩
    · exact .inr (.inl ⟨h2, rfl, unpackForm_unpack2 h2⟩)
  · exact .inr (.inr ⟨h3, unpackForm_unpack3 h3⟩)

theorem unpackForm_wellFormed (c0 c1 c2 c3 : Byte) : (unpackForm c0 c1 c2 c3).wellFormed = true := by
  rcases unpackForm_cases c0 c1 c2 c3 with ⟨-, -, h⟩ | ⟨h2, -, h⟩ | ⟨h3, h⟩
  · rw [h, Instr.wellFormed]
  · rw [h, wellFormed_unpack2_iff]
    exact h2
  · rw [h, wellFormed_unpack3_iff]
    exact h3

theorem unpackForm_port (c0 c1 c2 c3 : Byte) : (unpackForm c0 c1 c2 c3).port = .quad := by
  rcases unpackForm_cases c0 c1 c2 c3 with ⟨-, -, h⟩ | ⟨-, -, h⟩ | ⟨-, h⟩ <;> rw [h, Instr.port]

/-- The form keeps every character: the pads it leaves out are those the encoder puts back (rules R97, R102). -/
theorem encodeWord_unpackForm (c0 c1 c2 c3 : Byte) : encodeWord (unpackForm c0 c1 c2 c3) = quadWord c0 c1 c2 c3 := by
  rcases unpackForm_cases c0 c1 c2 c3 with ⟨h2, h3, h⟩ | ⟨-, h3, h⟩ | ⟨-, h⟩
  · rw [h, encodeWord, h2, h3]
  · rw [h, encodeWord, h3]
  · rw [h, encodeWord]

end Forms

section DecodeEncode

variable {p : Port} {w : Nat} {bs : List Byte} {i : Instr}

/-- The word of an operation has no bit beyond its port's width (R109 (c)). -/
theorem encodeWord_lt (i : Instr) : encodeWord i < 2 ^ i.port.width := by
  cases i with
  | s2c sym => exact (Laws.TableRow.s2c sym).1
  | c2s c => exact (Laws.TableRow.c2s c).1
  | pack3 b0 b1 b2 => exact (Laws.TableRow.pack3 b0 b1 b2).1
  | pack2 b0 b1 => exact (Laws.TableRow.pack2 b0 b1).1
  | pack1 b0 => exact (Laws.TableRow.pack1 b0).1
  | unpack3 c0 c1 c2 c3 => exact (Laws.TableRow.unpack3 c0 c1 c2 c3).1
  | unpack2 c0 c1 c2 => exact (Laws.TableRow.unpack2 c0 c1 c2).1
  | unpack1 c0 c1 => exact (Laws.TableRow.unpack1 c0 c1).1
  | encode => exact Laws.TableRow.encode.1
  | decode => exact Laws.TableRow.decode.1

/-- A port's bytes hold its word. -/
theorem width_le_bytes (p : Port) : p.width ≤ 8 * p.bytes := by
  cases p <;> simp [Port.width, Port.bytes]

/-- On words: the decoder gives every well-formed operation back. -/
theorem decodeWord_encodeWord (h : i.wellFormed = true) : decodeWord i.port (encodeWord i) = .ok i := by
  cases i with
  | s2c sym =>
    have hw : (wiresOfSymbol sym).toNat < 2 ^ 7 := (wiresOfSymbol sym).isLt
    rw [Instr.port, encodeWord, decodeWord, if_pos hw, BitVec.ofNat_toNat, BitVec.setWidth_eq,
      symbolOfWires_wiresOfSymbol]
  | c2s c =>
    have hw : c.toNat < 2 ^ 8 := c.isLt
    rw [Instr.port, encodeWord, decodeWord, if_pos hw, lane_eq (b := c) (by omega)]
  | pack3 b0 b1 b2 => exact decodeWord_tripletWord 3 b0 b1 b2
  | pack2 b0 b1 => exact decodeWord_tripletWord 2 b0 b1 0
  | pack1 b0 => exact decodeWord_tripletWord 1 b0 0 0
  | unpack3 c0 c1 c2 c3 =>
    rw [Instr.port, encodeWord, decodeWord_quadWord, unpackForm_unpack3 (wellFormed_unpack3_iff.mp h)]
  | unpack2 c0 c1 c2 =>
    rw [Instr.port, encodeWord, decodeWord_quadWord, unpackForm_unpack2 (wellFormed_unpack2_iff.mp h)]
  | unpack1 c0 c1 => rw [Instr.port, encodeWord, decodeWord_quadWord, unpackForm_unpack1]
  | encode => rfl
  | decode => rfl

/-- Driving a word's bytes at its port is reading the word: they are the port's number of bytes, and they hold it. -/
theorem decodeBytes_encode (i : Instr) : decodeBytes i.port (encode i) = decodeWord i.port (encodeWord i) := by
  have hfits : encodeWord i < 2 ^ (8 * i.port.bytes) :=
    (encodeWord_lt i).trans_le (Nat.pow_le_pow_right (by decide) (width_le_bytes i.port))
  rw [decodeBytes, encode, if_pos (bytesOfWord_length _ _), wordOfBytes_bytesOfWord _ _ hfits]

/-- All that is needed for bytes to be read. -/
theorem decodeBytes_eq_ok : decodeBytes p bs = .ok i ↔ bs.length = p.bytes ∧ decodeWord p (wordOfBytes bs) = .ok i := by
  unfold decodeBytes
  split <;> simp_all

/-- What the decoder can read, port by port, and from which words (rules R92, R95, R97, R101 to R103). -/
theorem decodeWord_cases (h : decodeWord p w = .ok i) :
    (p = .symbol ∧ i = .s2c (symbolOfWires (BitVec.ofNat 7 w))) ∨
    (p = .char ∧ w < 2 ^ 8 ∧ i = .c2s (lane w 0)) ∨
    (p = .triplet ∧ packForm (BitVec.ofNat 2 (w >>> 24)) (lane w 2) (lane w 1) (lane w 0) = .ok i) ∨
    (p = .quad ∧ w < 2 ^ 32 ∧ i = unpackForm (lane w 3) (lane w 2) (lane w 1) (lane w 0)) ∨
    (∃ u, p = .control u ∧ w = 1 ∧ i = commandOf u) := by
  cases p with
  | symbol =>
    rw [decodeWord] at h
    split_ifs at h
    cases h
    exact .inl ⟨rfl, rfl⟩
  | char =>
    rw [decodeWord] at h
    split_ifs at h with hw
    cases h
    exact .inr (.inl ⟨rfl, hw, rfl⟩)
  | triplet =>
    rw [decodeWord] at h
    split_ifs at h
    exact .inr (.inr (.inl ⟨rfl, h⟩))
  | quad =>
    rw [decodeWord] at h
    split_ifs at h with hw
    cases h
    exact .inr (.inr (.inr (.inl ⟨rfl, hw, rfl⟩)))
  | control u =>
    rw [decodeWord] at h
    split_ifs at h with h0 h1
    cases h
    exact .inr (.inr (.inr (.inr ⟨u, rfl, h1, rfl⟩)))

/-- What the decoder reads at a port is well formed and belongs there. -/
theorem decodeWord_ok (h : decodeWord p w = .ok i) : i.wellFormed = true ∧ i.port = p := by
  rcases decodeWord_cases h with ⟨rfl, rfl⟩ | ⟨rfl, -, rfl⟩ | ⟨rfl, hpack⟩ | ⟨rfl, -, rfl⟩ | ⟨u, rfl, -, rfl⟩
  · exact ⟨rfl, rfl⟩
  · exact ⟨rfl, rfl⟩
  · exact packForm_ok hpack
  · exact ⟨unpackForm_wellFormed _ _ _ _, unpackForm_port _ _ _ _⟩
  · cases u <;> exact ⟨rfl, rfl⟩

/-- At the character, quad and control ports no bit is ignored: the word read is the operation's own. -/
theorem encodeWord_of_decodeWord (h : decodeWord p w = .ok i) (hs : p ≠ .symbol) (ht : p ≠ .triplet) :
    encodeWord i = w := by
  rcases decodeWord_cases h with ⟨hp, -⟩ | ⟨-, hw, rfl⟩ | ⟨hp, -⟩ | ⟨-, hw, rfl⟩ | ⟨u, -, rfl, rfl⟩
  · exact absurd hp hs
  · rw [encodeWord, lane_toNat]
    omega
  · exact absurd hp ht
  · rw [encodeWord_unpackForm, quadWord_lanes hw]
  · cases u <;> rfl

end DecodeEncode

/-- Settles O7: the bytes hold the operation's word, and the word reads back. -/
theorem decodeOfEncodeIsTheInstruction : Obligations.DecodeOfEncodeIsTheInstruction := by
  intro i hi
  rw [decodeBytes_encode, decodeWord_encodeWord hi]

/-- Settles O8: both the bytes and the operation stand for the one word that was read. -/
theorem decodedWordsAreWellFormed : Obligations.DecodedWordsAreWellFormed := by
  intro p bs i h
  obtain ⟨hlen, hw⟩ := decodeBytes_eq_ok.mp h
  obtain ⟨hwf, hport⟩ := decodeWord_ok hw
  refine ⟨hwf, hport, fun hs ht => ?_⟩
  rw [encode, encodeWord_of_decodeWord hw hs ht, hport, ← hlen, bytesOfWord_wordOfBytes]

/-- Settles O9, each word by running the decoder on it. -/
theorem specWordsDecode : Obligations.SpecWordsDecode := by
  unfold Obligations.SpecWordsDecode
  decide

end Sys2Proof.Machine
end

section
/-! SUPPORT. The unpacked bytes as shifts (rule R106), the group step of `ENC` as `encode` of its group (rules R155, R160),
and the pseudo-moves WAIT and RESULT (rule R112). -/

namespace Sys2Proof.Machine

section ShiftFormulas

variable (v w : Val6)

theorem byte0Of_eq_shifts : byte0Of v w = (v.setWidth 8 <<< 2) ||| (w.setWidth 8 >>> 4) := by
  apply byte_ext
  simp only [byte0Of_getLsbD]
  intro i
  fin_cases i <;> simp

theorem byte1Of_eq_shifts : byte1Of v w = (v.setWidth 8 <<< 4) ||| (w.setWidth 8 >>> 2) := by
  apply byte_ext
  simp only [byte1Of_getLsbD]
  intro i
  fin_cases i <;> simp

theorem byte2Of_eq_shifts : byte2Of v w = (v.setWidth 8 <<< 6) ||| w.setWidth 8 := by
  apply byte_ext
  simp only [byte2Of_getLsbD]
  intro i
  fin_cases i <;> simp

end ShiftFormulas

/-- Settles O22. -/
theorem bytesAreTheShiftFormulas : Obligations.BytesAreTheShiftFormulas := fun v0 v1 v2 v3 =>
  ⟨byte0Of_eq_shifts v0 v1, byte1Of_eq_shifts v1 v2, byte2Of_eq_shifts v2 v3⟩

/-- Settles O29: a group has one to three bytes, on which the packer and `encode` agree, and the step is the group branch of
`ENC`'s unit step. -/
theorem encoderGroupStep : Obligations.EncoderGroupStep := by
  intro s ts bs ht hb hlt hr hroom
  have hlen := readCells_length hr
  obtain ⟨q, hq, hencode⟩ := packSeq_encode (bs := bs) (by omega) (by omega)
  rw [hencode]
  exact ⟨quadChars_length q, (step_turn_eq_next ht).mpr ⟨_, encUnitStep_group hb hlt hr hq hroom, rfl⟩⟩

section PseudoMoves

variable {u : UnitId} {s : State} {x : CodecUnit}

theorem waitDone_of_done (h : (s.unit u).status.done = true) : waitDone u s = readStatus u s := if_pos h

theorem waitDone_of_not_done (h : (s.unit u).status.done = false) :
    waitDone u s = (readStatus u s).setInputs (.wait u :: s.inputs) := by
  simp [waitDone, h]

theorem resultCellMoves_of_success (h : x.status.err = none) :
    resultCellMoves u x = (List.range x.olen).map (Input.bufRead u) := if_pos h

theorem resultCellMoves_of_error (h : x.status.err ≠ none) : resultCellMoves u x = [] := if_neg h

end PseudoMoves

/-- Settles O60: DONE decides what WAIT leaves to do, ERR which cells RESULT reads. -/
theorem pseudoMovesExpand : Obligations.PseudoMovesExpand := by
  intro s u
  refine ⟨fun hd => ?_, fun hd => ?_, rfl, resultCellMoves u (s.unit u), rfl, fun he => ?_, resultCellMoves_of_error⟩
  · rw [applyInput, waitDone_of_done hd, readStatus]
  · rw [applyInput, waitDone_of_not_done hd, readStatus]
  · rw [resultCellMoves_of_success he]
    exact ⟨by simp, fun a ha => by simp [ha]⟩

end Sys2Proof.Machine
end

section
/-! SUPPORT. The alphabet mapper: what S2C and C2S reply, the table of rule R93 by its ranges, and the two mappings as
inverses of each other (rules R120 to R123). -/

namespace Sys2Proof.Machine

open Sys2Proof.Safety

theorem exec_s2c (sym : Symbol) (s : State) : exec (.s2c sym) s = .next (s.reply (.char (symToChar sym))) := rfl

theorem exec_c2s (c : Byte) (s : State) : exec (.c2s c) s = .next (s.reply (.value (charToSym c))) := rfl

theorem dataChar_upperCase : ∀ v : Val6, v.toNat ≤ 25 → (dataChar v).toNat = 0x41 + v.toNat := by decide

theorem dataChar_lowerCase :
    ∀ v : Val6, 26 ≤ v.toNat → v.toNat ≤ 51 → (dataChar v).toNat = 0x61 + (v.toNat - 26) := by decide

theorem dataChar_digit :
    ∀ v : Val6, 52 ≤ v.toNat → v.toNat ≤ 61 → (dataChar v).toNat = 0x30 + (v.toNat - 52) := by decide

theorem mem_alphabet_iff {c : Byte} : c ∈ alphabet ↔ ∃ v, dataChar v = c :=
  ⟨dataChar_of_mem c, fun ⟨v, hv⟩ => hv ▸ dataChar_mem v⟩

/-- A value that C2S gives is that of a data character, which reads back as no other value. -/
theorem charToSym_eq_ok_iff {c : Byte} {v : Val6} : charToSym c = .ok v ↔ dataChar v = c := by
  constructor
  · intro h
    by_cases hc : c ∈ alphabet
    · obtain ⟨w, rfl⟩ := dataChar_of_mem c hc
      rw [charToSym_dataChar, Result.ok.injEq] at h
      rw [h]
    · rw [charToSym_outside c hc] at h
      cases h
  · rintro rfl
    exact charToSym_dataChar v

theorem dataChar_injective : Function.Injective dataChar := by
  intro v w h
  simpa only [charToSym_dataChar, Result.ok.injEq] using congrArg charToSym h

/-- The 65 symbols have 65 characters: the data characters differ by their values, and none is the pad's. -/
theorem symToChar_injective : Function.Injective symToChar := by
  intro a b h
  cases a with
  | pad =>
    cases b with
    | pad => rfl
    | data w => exact absurd ((symToChar_data w).symm.trans h.symm) (dataChar_ne_pad w)
  | data v =>
    cases b with
    | pad => exact absurd ((symToChar_data v).symm.trans h) (dataChar_ne_pad v)
    | data w =>
      rw [symToChar_data, symToChar_data] at h
      rw [dataChar_injective h]

/-- Settles O15: on data symbols S2C is the table's character, which C2S inverts, and the pad is outside the alphabet. -/
theorem alphabetMappingsAreInverse : Obligations.AlphabetMappingsAreInverse := by
  refine ⟨fun v => ?_, fun c v h => ?_, fun c => ?_, fun _ _ h => symToChar_injective h, charToSym_outside _ pad_not_mem⟩
  · rw [symToChar_data, charToSym_dataChar]
  · rw [symToChar_data, charToSym_eq_ok_iff.mp h]
  · simp only [symToChar_data, mem_alphabet_iff]

/-- Settles O13: S2C's reply is the table's character, and the table is read off range by range. -/
theorem s2CGivesTheTablesCharacter : Obligations.S2CGivesTheTablesCharacter := by
  refine fun s => ⟨exec_s2c .pad s, fun v => ⟨?_, dataChar_upperCase v, dataChar_lowerCase v, dataChar_digit v,
    fun h => ?_, fun h => ?_⟩⟩
  · rw [exec_s2c, symToChar_data]
  · rw [show v = 62 from BitVec.eq_of_toNat_eq h]
    decide
  · rw [show v = 63 from BitVec.eq_of_toNat_eq h]
    decide

/-- Settles O14: a data character reads back as its value, and a character of no value is outside the alphabet. -/
theorem c2SInvertsTheDataCharacters : Obligations.C2SInvertsTheDataCharacters := by
  refine fun s c => ⟨fun v hv => ?_, fun hc => ?_, dataChar_ne_pad⟩
  · rw [exec_c2s, charToSym_eq_ok_iff.mpr hv]
  · have hout : c ∉ alphabet := fun hmem => (mem_alphabet_iff.mp hmem).elim hc
    rw [exec_c2s, charToSym_outside c hout]

end Sys2Proof.Machine
end

section
/-! SUPPORT. The triplet packer: what its three forms reply, its symbols as slices of the bytes, and the three bytes
that four given values come from (rules R131 to R133, R105, R106). -/

namespace Sys2Proof.Machine

theorem exec_pack3 (b0 b1 b2 : Byte) (s : State) :
    exec (.pack3 b0 b1 b2) s = .next (s.reply (.symbols (pack3 b0 b1 b2))) := rfl

theorem exec_pack2 (b0 b1 : Byte) (s : State) : exec (.pack2 b0 b1) s = .next (s.reply (.symbols (pack2 b0 b1))) := rfl

theorem exec_pack1 (b0 : Byte) (s : State) : exec (.pack1 b0) s = .next (s.reply (.symbols (pack1 b0))) := rfl

section Slices

variable (b0 b1 b2 : Byte)

theorem pack3_eq_slices :
    pack3 b0 b1 b2 =
      ⟨.data (b0.extractLsb' 2 6), .data (b0.extractLsb' 0 2 ++ b1.extractLsb' 4 4),
       .data (b1.extractLsb' 0 4 ++ b2.extractLsb' 6 2), .data (b2.extractLsb' 0 6)⟩ := by
  rw [pack3, field0, field1, field2, field3]

/-- The absent byte2 is 0, and so is its slice in `s2` (rule R132). -/
theorem pack2_eq_slices :
    pack2 b0 b1 =
      ⟨.data (b0.extractLsb' 2 6), .data (b0.extractLsb' 0 2 ++ b1.extractLsb' 4 4),
       .data (b1.extractLsb' 0 4 ++ 0b00#2), .pad⟩ := by
  rw [pack2, field0, field1, field2, BitVec.ofNat_eq_ofNat, BitVec.extractLsb'_zero]

/-- The absent byte1 is 0, and so is its slice in `s1` (rule R133). -/
theorem pack1_eq_slices :
    pack1 b0 = ⟨.data (b0.extractLsb' 2 6), .data (b0.extractLsb' 0 2 ++ 0b0000#4), .pad, .pad⟩ := by
  rw [pack1, field0, field1, BitVec.ofNat_eq_ofNat, BitVec.extractLsb'_zero]

end Slices

section Values

variable (v0 v1 v2 v3 : Val6)

/-- Each byte of rule R106 is two slices of the values: its upper and its lower bits. -/
theorem byte0Of_upper : (byte0Of v0 v1).extractLsb' 2 6 = v0 := BitVec.extractLsb'_append_eq_left

theorem byte0Of_lower : (byte0Of v0 v1).extractLsb' 0 2 = v1.extractLsb' 4 2 := BitVec.extractLsb'_append_eq_right

theorem byte1Of_upper : (byte1Of v1 v2).extractLsb' 4 4 = v1.extractLsb' 0 4 := BitVec.extractLsb'_append_eq_left

theorem byte1Of_lower : (byte1Of v1 v2).extractLsb' 0 4 = v2.extractLsb' 2 4 := BitVec.extractLsb'_append_eq_right

theorem byte2Of_upper : (byte2Of v2 v3).extractLsb' 6 2 = v2.extractLsb' 0 2 := BitVec.extractLsb'_append_eq_left

theorem byte2Of_lower : (byte2Of v2 v3).extractLsb' 0 6 = v3 := BitVec.extractLsb'_append_eq_right

/-- Packing the bytes that four values unpack to gives the values back: each value is its two slices joined. -/
theorem pack3_bytesOf :
    pack3 (byte0Of v0 v1) (byte1Of v1 v2) (byte2Of v2 v3) = ⟨.data v0, .data v1, .data v2, .data v3⟩ := by
  have hv1 : v1.extractLsb' 4 2 ++ v1.extractLsb' 0 4 = v1 := BitVec.extractLsb'_append_extractLsb' (w := 2) (len := 4)
  have hv2 : v2.extractLsb' 2 4 ++ v2.extractLsb' 0 2 = v2 := BitVec.extractLsb'_append_extractLsb' (w := 4) (len := 2)
  rw [pack3_eq_slices, byte0Of_upper, byte0Of_lower, byte1Of_upper, byte1Of_lower, byte2Of_upper, byte2Of_lower,
    hv1, hv2]

end Values

/-- PACK3 and the bytes of rule R106 are inverse to each other. -/
theorem pack3_eq_data_iff {b0 b1 b2 : Byte} {v0 v1 v2 v3 : Val6} :
    pack3 b0 b1 b2 = ⟨.data v0, .data v1, .data v2, .data v3⟩ ↔
      b0 = byte0Of v0 v1 ∧ b1 = byte1Of v1 v2 ∧ b2 = byte2Of v2 v3 := by
  constructor
  · rw [pack3_eq_slices]
    rintro ⟨⟩
    exact ⟨(byte0_fields b0 b1).symm, (byte1_fields b0 b1 b2).symm, (byte2_fields b1 b2).symm⟩
  · rintro ⟨rfl, rfl, rfl⟩
    exact pack3_bytesOf v0 v1 v2 v3

theorem pack3_injective {b0 b1 b2 d0 d1 d2 : Byte} (h : pack3 b0 b1 b2 = pack3 d0 d1 d2) :
    b0 = d0 ∧ b1 = d1 ∧ b2 = d2 := by
  obtain ⟨hb0, hb1, hb2⟩ := pack3_eq_data_iff.mp (h.trans (pack3_eq_slices d0 d1 d2))
  rw [hb0, hb1, hb2]
  exact ⟨byte0_fields d0 d1, byte1_fields d0 d1 d2, byte2_fields d1 d2⟩

/-- Settles O16: the fields of the triplet word are slices of its bytes, and the bytes of rule R106 invert PACK3. -/
theorem pack3RegroupsTwentyFourBits : Obligations.Pack3RegroupsTwentyFourBits := by
  refine ⟨fun s b0 b1 b2 => ?_, fun _ _ _ _ _ _ => pack3_injective,
    fun v0 v1 v2 v3 => ⟨_, _, _, pack3_bytesOf v0 v1 v2 v3⟩⟩
  rw [exec_pack3, pack3_eq_slices]

/-- Settles O17: PACK2 replies the slices of its bytes, the absent byte2 being zeros in `s2`. -/
theorem pack2ZeroFillsAndPads : Obligations.Pack2ZeroFillsAndPads := by
  intro s b0 b1
  rw [exec_pack2, pack2_eq_slices]

/-- Settles O18: PACK1 replies the slices of its byte, the absent byte1 being zeros in `s1`. -/
theorem pack1ZeroFillsAndPads : Obligations.Pack1ZeroFillsAndPads := by
  intro s b0
  rw [exec_pack1, pack1_eq_slices]

end Sys2Proof.Machine
end

section
/-! SUPPORT. The quad unpacker: what its three forms reply, when they give bytes and when they fail, and the packer's
symbols through it (rules R102, R140 to R147). -/

namespace Sys2Proof.Machine

open Sys2Proof.Safety

theorem exec_unpack3 (c0 c1 c2 c3 : Byte) (s : State) :
    exec (.unpack3 c0 c1 c2 c3) s = .next (s.reply (.bytes (unpack3 c0 c1 c2 c3))) := rfl

theorem exec_unpack2 (c0 c1 c2 : Byte) (s : State) :
    exec (.unpack2 c0 c1 c2) s = .next (s.reply (.bytes (unpack2 c0 c1 c2))) := rfl

theorem exec_unpack1 (c0 c1 : Byte) (s : State) :
    exec (.unpack1 c0 c1) s = .next (s.reply (.bytes (unpack1 c0 c1))) := rfl

@[simp] theorem Result.bind_ok {α β : Type} (a : α) (f : α → Result β) : (Result.ok a).bind f = f a := rfl

@[simp] theorem Result.bind_fail {α β : Type} (e : Err) (f : α → Result β) : (Result.fail e).bind f = .fail e := rfl

section DataCharacters

variable (v0 v1 v2 v3 : Val6)

theorem unpack1_dataChar : unpack1 (dataChar v0) (dataChar v1) = .ok [byte0Of v0 v1] := by
  simp only [unpack1, charToSym_dataChar, Result.bind_ok]

theorem unpack2_dataChar :
    unpack2 (dataChar v0) (dataChar v1) (dataChar v2) = .ok [byte0Of v0 v1, byte1Of v1 v2] := by
  simp only [unpack2, charToSym_dataChar, Result.bind_ok]

theorem unpack3_dataChar :
    unpack3 (dataChar v0) (dataChar v1) (dataChar v2) (dataChar v3) =
      .ok [byte0Of v0 v1, byte1Of v1 v2, byte2Of v2 v3] := by
  simp only [unpack3, charToSym_dataChar, Result.bind_ok]

/-- The bytes as rules R141 to R143 write them, the whole value `v[5:0]` as a slice of itself. -/
theorem byte0Of_eq_slices : byte0Of v0 v1 = v0.extractLsb' 0 6 ++ v1.extractLsb' 4 2 := by
  rw [BitVec.extractLsb'_eq_self, byte0Of]

theorem byte2Of_eq_slices : byte2Of v2 v3 = v2.extractLsb' 0 2 ++ v3.extractLsb' 0 6 := by
  rw [BitVec.extractLsb'_eq_self, byte2Of]

end DataCharacters

section Failures

variable {c0 c1 c2 c3 : Byte}

/-- Reading one more character fails if that character is no data character, or if whatever follows it fails. -/
theorem charToSym_bind_fails {f : Val6 → Result (List Byte)}
    (h : c0 ∉ alphabet ∨ ∀ v, f v = .fail .invalidCharacter) : (charToSym c0).bind f = .fail .invalidCharacter := by
  rcases charToSym_cases c0 with ⟨-, h0⟩ | ⟨hmem, v, h0⟩
  · rw [h0, Result.bind_fail]
  · rw [h0, Result.bind_ok]
    exact h.resolve_left (not_not_intro hmem) v

theorem unpack1_fails (h : c0 ∉ alphabet ∨ c1 ∉ alphabet) : unpack1 c0 c1 = .fail .invalidCharacter :=
  charToSym_bind_fails (h.imp_right fun h _ => charToSym_bind_fails (.inl h))

theorem unpack2_fails (h : c0 ∉ alphabet ∨ c1 ∉ alphabet ∨ c2 ∉ alphabet) :
    unpack2 c0 c1 c2 = .fail .invalidCharacter :=
  charToSym_bind_fails (h.imp_right fun h _ => charToSym_bind_fails (h.imp_right fun h _ =>
    charToSym_bind_fails (.inl h)))

theorem unpack3_fails (h : c0 ∉ alphabet ∨ c1 ∉ alphabet ∨ c2 ∉ alphabet ∨ c3 ∉ alphabet) :
    unpack3 c0 c1 c2 c3 = .fail .invalidCharacter :=
  charToSym_bind_fails (h.imp_right fun h _ => charToSym_bind_fails (h.imp_right fun h _ =>
    charToSym_bind_fails (h.imp_right fun h _ => charToSym_bind_fails (.inl h))))

end Failures

/-- Settles O19: four data characters give the bytes of their values, and one that is none fails the form. -/
theorem unpack3GivesThreeBytes : Obligations.Unpack3GivesThreeBytes := by
  refine fun s c0 c1 c2 c3 => ⟨?_, fun h => ?_⟩
  · rintro v0 v1 v2 v3 rfl rfl rfl rfl
    rw [exec_unpack3, unpack3_dataChar, byte0Of_eq_slices, byte1Of, byte2Of_eq_slices]
  · rw [exec_unpack3, unpack3_fails h]

/-- Settles O20: three data characters give the bytes of their values, and one that is none fails the form. -/
theorem unpack2GivesTwoBytes : Obligations.Unpack2GivesTwoBytes := by
  refine fun s c0 c1 c2 => ⟨?_, fun h => ?_⟩
  · rintro v0 v1 v2 rfl rfl rfl
    rw [exec_unpack2, unpack2_dataChar, byte0Of_eq_slices, byte1Of]
  · rw [exec_unpack2, unpack2_fails h]

/-- Settles O21: two data characters give the byte of their values, and one that is none fails the form. -/
theorem unpack1GivesOneByte : Obligations.Unpack1GivesOneByte := by
  refine fun s c0 c1 => ⟨?_, fun h => ?_⟩
  · rintro v0 v1 rfl rfl
    rw [exec_unpack1, unpack1_dataChar, byte0Of_eq_slices]
  · rw [exec_unpack1, unpack1_fails h]

section Selection

variable {c0 c1 c2 c3 : Byte}

theorem unpack_eq_unpack1 (h2 : c2 = padCode) (h3 : c3 = padCode) : unpack c0 c1 c2 c3 = unpack1 c0 c1 :=
  if_pos ⟨h2, h3⟩

theorem unpack_eq_unpack2 (h2 : c2 ≠ padCode) (h3 : c3 = padCode) : unpack c0 c1 c2 c3 = unpack2 c0 c1 c2 :=
  (if_neg fun h => h2 h.1).trans (if_pos h3)

theorem unpack_eq_unpack3 (h3 : c3 ≠ padCode) : unpack c0 c1 c2 c3 = unpack3 c0 c1 c2 c3 :=
  (if_neg fun h => h3 h.2).trans (if_neg h3)

/-- The form that a quad selects replies what the unpacker as one function gives (rules R102, R140). -/
theorem exec_unpackForm (c0 c1 c2 c3 : Byte) (s : State) :
    exec (unpackForm c0 c1 c2 c3) s = .next (s.reply (.bytes (unpack c0 c1 c2 c3))) := by
  rcases unpackForm_cases c0 c1 c2 c3 with ⟨h2, h3, hform⟩ | ⟨h2, h3, hform⟩ | ⟨h3, hform⟩
  · rw [hform, exec_unpack1, unpack_eq_unpack1 h2 h3]
  · rw [hform, exec_unpack2, unpack_eq_unpack2 h2 h3]
  · rw [hform, exec_unpack3, unpack_eq_unpack3 h3]

/-- A quad that unpacks has `=` nowhere but in `c3`, or in `c2` and `c3` (rule R144). -/
theorem pad_placed_of_unpack_ok {ys : List Byte} (h : unpack c0 c1 c2 c3 = .ok ys) :
    ¬(c0 = padCode ∨ c1 = padCode ∨ (c2 = padCode ∧ c3 ≠ padCode)) := by
  obtain ⟨h0, h1, h23⟩ := unpack_ok_iff.mp ⟨ys, h⟩
  rintro (rfl | rfl | ⟨rfl, h3⟩)
  · exact pad_not_mem h0
  · exact pad_not_mem h1
  · rcases h23 with ⟨-, hpad⟩ | ⟨h2, -⟩ | ⟨h2, -⟩
    · exact h3 hpad
    · exact pad_not_mem h2
    · exact pad_not_mem h2

end Selection

/-- Settles O23: with `=` misplaced the unpacker cannot succeed, and it has one failure. -/
theorem misplacedPadFails : Obligations.MisplacedPadFails := by
  intro s c0 c1 c2 c3 hpad
  rw [exec_unpackForm]
  cases h : unpack c0 c1 c2 c3 with
  | ok ys => exact absurd hpad (pad_placed_of_unpack_ok h)
  | fail e => rw [unpack_fail h]

section RoundTrip

variable (v0 v1 v2 v3 : Val6)

/-- The unpacker on the characters of two, three and four data symbols, the rest being PAD. -/
theorem unpack_twoData :
    unpack (symToChar (.data v0)) (symToChar (.data v1)) (symToChar .pad) (symToChar .pad) =
      .ok [byte0Of v0 v1] := by
  simp only [symToChar_data]
  rw [unpack_eq_unpack1 symToChar_pad symToChar_pad, unpack1_dataChar]

theorem unpack_threeData :
    unpack (symToChar (.data v0)) (symToChar (.data v1)) (symToChar (.data v2)) (symToChar .pad) =
      .ok [byte0Of v0 v1, byte1Of v1 v2] := by
  simp only [symToChar_data]
  rw [unpack_eq_unpack2 (dataChar_ne_pad v2) symToChar_pad, unpack2_dataChar]

theorem unpack_fourData :
    unpack (symToChar (.data v0)) (symToChar (.data v1)) (symToChar (.data v2)) (symToChar (.data v3)) =
      .ok [byte0Of v0 v1, byte1Of v1 v2, byte2Of v2 v3] := by
  simp only [symToChar_data]
  rw [unpack_eq_unpack3 (dataChar_ne_pad v3), unpack3_dataChar]

variable (b0 b1 b2 : Byte)

/-- The fields of the triplet word put its bytes together again (rules R105, R106). -/
theorem byte0Of_fieldOf : byte0Of (fieldOf (tripletOf b0 b1 b2) 0) (fieldOf (tripletOf b0 b1 b2) 1) = b0 := by
  rw [field0, field1, byte0_fields]

theorem byte1Of_fieldOf : byte1Of (fieldOf (tripletOf b0 b1 b2) 1) (fieldOf (tripletOf b0 b1 b2) 2) = b1 := by
  rw [field1, field2, byte1_fields]

theorem byte2Of_fieldOf : byte2Of (fieldOf (tripletOf b0 b1 b2) 2) (fieldOf (tripletOf b0 b1 b2) 3) = b2 := by
  rw [field2, field3, byte2_fields]

end RoundTrip

/-- Settles O25: the symbols of one, two or three bytes are two, three or four fields of the triplet word. -/
theorem unpackInvertsPack : Obligations.UnpackInvertsPack := by
  intro m q hq
  match m with
  | [b0] =>
    obtain rfl : pack1 b0 = q := Option.some.inj hq
    rw [pack1, unpack_twoData, byte0Of_fieldOf]
  | [b0, b1] =>
    obtain rfl : pack2 b0 b1 = q := Option.some.inj hq
    rw [pack2, unpack_threeData, byte0Of_fieldOf, byte1Of_fieldOf]
  | [b0, b1, b2] =>
    obtain rfl : pack3 b0 b1 b2 = q := Option.some.inj hq
    rw [pack3, unpack_fourData, byte0Of_fieldOf, byte1Of_fieldOf, byte2Of_fieldOf]
  | [] => cases hq
  | _ :: _ :: _ :: _ :: _ => cases hq

section LastCharacter

variable {c0 c1 c2 : Byte} {v : Val6}

theorem unpack1_of_lastValue (h : charToSym c1 = .ok v) :
    unpack1 c0 c1 = (charToSym c0).bind fun v0 => .ok [byte0Of v0 v] := by
  simp only [unpack1, h, Result.bind_ok]

theorem unpack2_of_lastValue (h : charToSym c2 = .ok v) :
    unpack2 c0 c1 c2 =
      (charToSym c0).bind fun v0 => (charToSym c1).bind fun v1 => .ok [byte0Of v0 v1, byte1Of v1 v] := by
  simp only [unpack2, h, Result.bind_ok]

end LastCharacter

/-- Settles O24: the last character's value enters only the last byte, and there only by its upper slice. -/
theorem unreferencedBitsAreIgnored : Obligations.UnreferencedBitsAreIgnored := by
  refine ⟨fun c0 c1 d1 v w hv hw hbits => ?_, fun c0 c1 c2 d2 v w hv hw hbits => ?_⟩
  · have hbyte : ∀ v0, byte0Of v0 v = byte0Of v0 w := fun v0 => by rw [byte0Of, hbits, byte0Of]
    simp only [unpack1_of_lastValue hv, unpack1_of_lastValue hw, hbyte]
  · have hbyte : ∀ v1, byte1Of v1 v = byte1Of v1 w := fun v1 => by rw [byte1Of, hbits, byte1Of]
    simp only [unpack2_of_lastValue hv, unpack2_of_lastValue hw, hbyte]

end Sys2Proof.Machine
end

section
/-! SUPPORT. The function `encode` of rule R155: its length (R157), its pads (R159), its characters (R161), and `encode` of a
message cut at a chunk boundary. -/

namespace Sys2Proof.Machine

open Sys2Proof.Safety

/-- A full chunk more does not change how many bytes the last chunk has. -/
theorem length_chunk_mod (b0 b1 b2 : Byte) (rest : List Byte) :
    (b0 :: b1 :: b2 :: rest).length % 3 = rest.length % 3 := by
  simp only [List.length_cons, Nat.add_assoc]
  omega

theorem encodeMessage_length (m : List Byte) : (encodeMessage m).length = 4 * ((m.length + 2) / 3) := by
  induction m using encodeMessage.induct with
  | case1 => rfl
  | case2 b0 => simp [encodeMessage, quadChars_length]
  | case3 b0 b1 => simp [encodeMessage, quadChars_length]
  | case4 b0 b1 b2 rest ih =>
    rw [encodeMessage_chunk, List.length_append, quadChars_length, ih]
    simp only [List.length_cons]
    omega

/-- `encode` works chunk by chunk: a message cut where a chunk ends is encoded part by part (rule R155). -/
theorem encodeMessage_append {front : List Byte} (h : front.length % 3 = 0) (rest : List Byte) :
    encodeMessage (front ++ rest) = encodeMessage front ++ encodeMessage rest := by
  induction front using encodeMessage.induct with
  | case1 => rfl
  | case2 b0 => simp at h
  | case3 b0 b1 => simp at h
  | case4 b0 b1 b2 front ih =>
    simp only [List.cons_append, encodeMessage_chunk, List.append_assoc]
    rw [ih (length_chunk_mod b0 b1 b2 front ▸ h)]

theorem symToChar_data_mem (v : Val6) : symToChar (.data v) ∈ alphabet := symToChar_data v ▸ dataChar_mem v

/-- How many pads stand at the end of an encoded message of `n` bytes (rule R159). -/
def padCount (n : Nat) : Nat := if n % 3 = 1 then 2 else if n % 3 = 2 then 1 else 0

theorem padCount_length_chunk (b0 b1 b2 : Byte) (rest : List Byte) :
    padCount (b0 :: b1 :: b2 :: rest).length = padCount rest.length := by
  rw [padCount, length_chunk_mod, padCount]

/-- The characters of a full chunk are data characters (rules R131, R159). -/
theorem quadChars_pack3_mem {b0 b1 b2 c : Byte} (h : c ∈ quadChars (pack3 b0 b1 b2)) : c ∈ alphabet := by
  simp only [quadChars, pack3, List.mem_cons, List.not_mem_nil, or_false] at h
  rcases h with rfl | rfl | rfl | rfl <;> exact symToChar_data_mem _

/-- An encoded message is data characters and then its pads (rule R159). -/
theorem encodeMessage_eq_front_append_pads (m : List Byte) :
    ∃ front, encodeMessage m = front ++ List.replicate (padCount m.length) padCode ∧ ∀ c ∈ front, c ∈ alphabet := by
  induction m using encodeMessage.induct with
  | case1 => exact ⟨[], rfl, by simp⟩
  | case2 b0 =>
    refine ⟨[symToChar (pack1 b0).s0, symToChar (pack1 b0).s1], rfl, ?_⟩
    simp [pack1, symToChar_data_mem]
  | case3 b0 b1 =>
    refine ⟨[symToChar (pack2 b0 b1).s0, symToChar (pack2 b0 b1).s1, symToChar (pack2 b0 b1).s2], rfl, ?_⟩
    simp [pack2, symToChar_data_mem]
  | case4 b0 b1 b2 rest ih =>
    obtain ⟨front, hrest, hfront⟩ := ih
    refine ⟨quadChars (pack3 b0 b1 b2) ++ front, ?_, fun c hc => ?_⟩
    · rw [encodeMessage_chunk, hrest, padCount_length_chunk, List.append_assoc]
    · exact (List.mem_append.mp hc).elim quadChars_pack3_mem (hfront c)

/-- Settles O44, by induction over the chunks. -/
theorem encodedLength : Obligations.EncodedLength := encodeMessage_length

/-- Settles O45, by induction over the chunks: only the last, and only if it is short, has pads. -/
theorem padsStandAtTheEnd : Obligations.PadsStandAtTheEnd := encodeMessage_eq_front_append_pads

/-- Settles O46: by the padding law a character is one of the front or a pad. -/
theorem encodedCharactersAreInTheAlphabet : Obligations.EncodedCharactersAreInTheAlphabet := by
  intro m c hc
  obtain ⟨front, hm, hfront⟩ := encodeMessage_eq_front_append_pads m
  rw [hm] at hc
  exact (List.mem_append.mp hc).imp (hfront c) List.eq_of_mem_replicate

end Sys2Proof.Machine
end

section
/-! SUPPORT. Steps whose moves from outside spare a unit: the unit changes by its own unit steps only (rules R21, R23, R197). -/

namespace Sys2Proof.Machine

section HostMoveResults

variable {c : Caps} {u : UnitId} {s t : State}

/-- A register read only replies (rules R29, R195). -/
theorem regRead_eq_next {reg : Nat} (h : regRead u reg s = .next t) : ∃ r, t = s.reply r := by
  unfold regRead at h
  split at h
  · exact ⟨_, (Host.Outcome.next.inj (whenIdle_eq_next.mp h).2).symm⟩
  · exact ⟨_, (Host.Outcome.next.inj h).symm⟩
  · exact ⟨_, (Host.Outcome.next.inj (whenIdle_eq_next.mp h).2).symm⟩
  · exact ⟨_, (Host.Outcome.next.inj (whenIdle_eq_next.mp h).2).symm⟩
  · cases h

/-- A cell read only replies, and may draw a free value (rules R81, R219). -/
theorem bufRead_eq_next {a : Nat} (h : bufRead c u a s = .next t) : ∃ r, t = s.reply r ∨ t = (s.reply r).drawn := by
  obtain ⟨-, h⟩ := whenIdle_eq_next.mp h
  split at h
  · cases h
  · split at h
    · cases h
    · split at h
      · cases h
        unfold readResultCell
        split
        · exact ⟨_, .inl rfl⟩
        · exact ⟨_, .inr rfl⟩
      · cases h

/-- A register write changes nothing but its unit (rules R29, R30, R32). -/
theorem regWrite_eq_next {reg data : Nat} (h : regWrite c u reg data s = .next t) : ∃ y, t = s.setUnit u y := by
  have same : s = t → ∃ y, t = s.setUnit u y := fun e => ⟨s.unit u, by rw [setUnit_self, e]⟩
  unfold regWrite at h
  split at h
  · simp only [decodeWord] at h
    split at h
    · exact same (Host.Outcome.next.inj h)
    · split at h
      · obtain ⟨-, -, rfl⟩ := startUnit_eq_next.mp ((exec_commandOf u s).symm.trans h)
        exact ⟨_, rfl⟩
      · cases h
  · exact same (Host.Outcome.next.inj (whenIdle_eq_next.mp h).2)
  · obtain ⟨-, h⟩ := whenIdle_eq_next.mp h
    unfold writeLength at h
    split at h
    · cases h
    · exact ⟨_, (Host.Outcome.next.inj h).symm⟩
  · exact same (Host.Outcome.next.inj (whenIdle_eq_next.mp h).2)
  · cases h

/-- A cell write changes nothing but its unit (rule R62). -/
theorem bufWrite_eq_next {a : Nat} {v : Byte} (h : bufWrite c u a v s = .next t) : ∃ y, t = s.setUnit u y := by
  obtain ⟨-, h⟩ := whenIdle_eq_next.mp h
  split at h
  · cases h
  · exact ⟨_, (Host.Outcome.next.inj h).symm⟩

/-- Running a word leaves the moves from outside as they were. -/
theorem runDecoded_inputs {d : Except DecodeError Instr} (h : runDecoded d s = .next t) : t.inputs = s.inputs := by
  cases d with
  | ok i => exact (exec_rest h).1
  | error e =>
    cases e with
    | noOperation => rw [Host.Outcome.next.inj h]
    | upperBits => cases h
    | countZero => cases h
    | wrongLength => cases h

theorem waitDone_cases : waitDone u s = readStatus u s ∨ waitDone u s = (readStatus u s).setInputs (.wait u :: s.inputs) := by
  cases h : (s.unit u).status.done with
  | true => exact .inl (waitDone_of_done h)
  | false => exact .inr (waitDone_of_not_done h)

/-- A word that is not driven at a unit's control port is not its command (rule R103). -/
theorem runDecoded_unit_of_port {p : Port} {bs : List Byte} (hp : p ≠ .control u)
    (h : runDecoded (decodeBytes p bs) s = .next t) : t.unit u = s.unit u := by
  rcases runDecoded_unit h u with h | ⟨hcommand, -⟩
  · exact h
  · exact absurd (decodeWord_command (decodeBytes_eq_ok.mp hcommand).2) hp

end HostMoveResults

end Sys2Proof.Machine

namespace Sys2Proof.Safety

open Sys2Proof.Machine

/-- All moves still to come from outside spare unit `u`. -/
def HostSpares (u : UnitId) (s : State) : Prop := ∀ i ∈ s.inputs, spares u i = true

section Spared

variable {c : Caps} {u : UnitId} {s t : State}

theorem HostSpares.of_inputs (h : HostSpares u s) (e : t.inputs = s.inputs) : HostSpares u t := by
  unfold HostSpares
  rwa [e]

theorem HostSpares.setInputs_append {is : List Input} (h : HostSpares u s) (his : ∀ i ∈ is, spares u i = true) :
    HostSpares u (s.setInputs (is ++ s.inputs)) :=
  fun i hi => (List.mem_append.mp hi).elim (his i) (h i)

/-- A move that spares a unit leaves it as it was, and the moves that `WAIT` and `RESULT` add spare it too. -/
theorem applyInput_spares {i : Input} (hi : spares u i = true) (hs : HostSpares u s)
    (h : applyInput c i s = .next t) : t.unit u = s.unit u ∧ HostSpares u t := by
  cases i with
  | reset => cases hi
  | regWrite v reg data =>
    obtain ⟨y, rfl⟩ := regWrite_eq_next h
    have hv : v ≠ u := bne_iff_ne.mp hi
    exact ⟨unit_setUnit_other _ _ hv.symm, hs.of_inputs (setUnit_inputs ..)⟩
  | bufWrite v a b =>
    obtain ⟨y, rfl⟩ := bufWrite_eq_next h
    have hv : v ≠ u := bne_iff_ne.mp hi
    exact ⟨unit_setUnit_other _ _ hv.symm, hs.of_inputs (setUnit_inputs ..)⟩
  | regRead v reg =>
    obtain ⟨r, rfl⟩ := regRead_eq_next h
    exact ⟨unit_reply .., hs.of_inputs rfl⟩
  | bufRead v a =>
    obtain ⟨r, rfl | rfl⟩ := bufRead_eq_next h
    · exact ⟨unit_reply .., hs.of_inputs rfl⟩
    · exact ⟨(unit_drawn ..).trans (unit_reply ..), hs.of_inputs rfl⟩
  | wait v =>
    obtain rfl := Host.Outcome.next.inj h
    rcases waitDone_cases (u := v) (s := s) with e | e
    · rw [e]
      exact ⟨unit_reply .., hs.of_inputs rfl⟩
    · rw [e]
      exact ⟨(unit_setInputs ..).trans (unit_reply ..), hs.setInputs_append (is := [.wait v]) (by simp [spares])⟩
  | result v =>
    obtain rfl := Host.Outcome.next.inj h
    exact ⟨unit_setInputs .., hs.setInputs_append (by simp [resultMoves, spares])⟩
  | resultCells v =>
    obtain rfl := Host.Outcome.next.inj h
    refine ⟨unit_setInputs .., hs.setInputs_append ?_⟩
    unfold resultCellMoves
    split <;> simp [spares]
  | operand p bs =>
    exact ⟨runDecoded_unit_of_port (bne_iff_ne.mp hi) h, hs.of_inputs (runDecoded_inputs h)⟩

theorem hostStep_spares (hs : HostSpares u s) (h : hostStep c s = .next t) :
    t.unit u = s.unit u ∧ HostSpares u t := by
  unfold hostStep at h
  split at h
  · cases h
    exact ⟨rfl, hs⟩
  · next i rest hinputs =>
    obtain ⟨hi, hrest⟩ := List.forall_mem_cons.mp (hinputs ▸ hs : ∀ j ∈ i :: rest, spares u j = true)
    obtain ⟨hunit, ht⟩ := applyInput_spares hi (s := s.setInputs rest) hrest h
    exact ⟨hunit.trans (unit_setInputs ..), ht⟩

theorem agentStep_spares {who : Agent} (hs : HostSpares u s) (h : agentStep c who s = .next t) :
    (unitStep c u (s.unit u) = .next (t.unit u) ∨ t.unit u = s.unit u) ∧ HostSpares u t := by
  cases who with
  | host =>
    obtain ⟨hunit, ht⟩ := hostStep_spares hs h
    exact ⟨.inr hunit, ht⟩
  | unit v =>
    obtain ⟨y, hy, hnext⟩ := andThen_eq_next.mp h
    obtain rfl := Host.Outcome.next.inj hnext
    refine ⟨?_, hs.of_inputs (setUnit_inputs ..)⟩
    by_cases e : u = v
    · subst e
      rw [unit_setUnit_same]
      exact .inl hy
    · exact .inr (unit_setUnit_other _ _ e)

/-- While the moves from outside spare a unit, a step is its own unit step or leaves it as it was. -/
theorem step_spares (hs : HostSpares u s) (h : step s = .next t) :
    (unitStep Config.caps u (s.unit u) = .next (t.unit u) ∨ t.unit u = s.unit u) ∧ HostSpares u t := by
  rcases stepWith_agent h with h | ⟨who, s', h, henc, hdec, hinputs⟩
  · obtain rfl := Host.Outcome.next.inj h
    exact ⟨.inr rfl, hs⟩
  · have hunit : s'.unit u = s.unit u := by cases u <;> assumption
    rw [← hunit]
    exact agentStep_spares (hs.of_inputs hinputs) h

theorem run_succ_eq_next {k : Nat} : run (k + 1) s = .next t ↔ ∃ s', step s = .next s' ∧ run k s' = .next t :=
  andThen_eq_next

end Spared

section Runs

variable {u : UnitId} {P : CodecUnit → Prop}

/-- What a unit's own steps keep holds after any run, in any order of agents, that spares the unit. -/
theorem run_spares_keeps (hP : ∀ x y, P x → unitStep Config.caps u x = .next y → P y) {k : Nat} {s t : State}
    (hs : HostSpares u s) (hx : P (s.unit u)) (h : run k s = .next t) : P (t.unit u) := by
  induction k generalizing s with
  | zero =>
    obtain rfl := Host.Outcome.next.inj h
    exact hx
  | succ k ih =>
    obtain ⟨s', hstep, hrun⟩ := run_succ_eq_next.mp h
    obtain ⟨hunit, hs'⟩ := step_spares hs hstep
    refine ih hs' ?_ hrun
    rcases hunit with hunit | hunit
    · exact hP _ _ hx hunit
    · rwa [hunit]

theorem setUnit_setUnit (s : State) (u : UnitId) (x y : CodecUnit) : (s.setUnit u x).setUnit u y = s.setUnit u y := by
  cases u <;> rfl

theorem scheduled_zero (u : UnitId) (s : State) : scheduled u 0 s = s := rfl

/-- The first of the turns given to a unit is its unit step, on the same schedule with a turn less. -/
theorem step_scheduled_succ {k : Nat} {s : State} {y : CodecUnit} (h : unitStep Config.caps u (s.unit u) = .next y) :
    step (scheduled u (k + 1) s) = .next (scheduled u k (s.setUnit u y)) := by
  have hturns : (scheduled u (k + 1) s).turns = .unit u :: (List.replicate k (.unit u) ++ s.turns) := rfl
  refine (step_turn_eq_next hturns).mpr ⟨y, by rwa [scheduled, unit_setTurns], ?_⟩
  cases u <;> rfl

/-- Given as many turns as its operation has steps left, a unit comes to the end of it; nothing else changes (rule R221). -/
theorem run_scheduled_completes (hP : ∀ x, P x → ∃ y, unitStep Config.caps u x = .next y ∧ P y) {k : Nat} {s : State}
    (hx : P (s.unit u)) (hk : stepsLeft u (s.unit u) ≤ k) :
    ∃ y, run k (scheduled u k s) = .next (s.setUnit u y) ∧ P y ∧ y.status.busy = false := by
  induction k generalizing s with
  | zero =>
    have hidle : (s.unit u).status.busy = false :=
      Bool.eq_false_iff.mpr fun hb => (stepsLeft_pos_of_busy hb).not_ge hk
    exact ⟨s.unit u, by rw [scheduled_zero, setUnit_self]; rfl, hx, hidle⟩
  | succ k ih =>
    obtain ⟨y, hy, hPy⟩ := hP _ hx
    have hleft : stepsLeft u y ≤ k := by
      cases hb : (s.unit u).status.busy with
      | true => exact Nat.le_of_lt_succ ((unitStep_stepsLeft_lt hb hy).trans_le hk)
      | false =>
        obtain rfl := Host.Outcome.next.inj ((unitStep_idle hb).symm.trans hy)
        exact (stepsLeft_of_idle hb).trans_le (Nat.zero_le k)
    obtain ⟨z, hrun, hz⟩ := ih (s := s.setUnit u y) (by rwa [unit_setUnit_same]) (by rwa [unit_setUnit_same])
    rw [setUnit_setUnit] at hrun
    exact ⟨z, run_succ_eq_next.mpr ⟨_, step_scheduled_succ hy, hrun⟩, hz⟩

end Runs

end Sys2Proof.Safety
end

section
/-! SUPPORT. An ENCODE from START to completion: what stands in the output buffer is `encode` of the part of the message that
has been read (rules R160, R162). -/

namespace Sys2Proof.Machine

/-- Settles O30: the step is the completion branch of `ENC`'s unit step. -/
theorem encoderCompletionStep : Obligations.EncoderCompletionStep := by
  intro s ts ht hb hle
  exact (step_turn_eq_next ht).mpr ⟨_, encUnitStep_completion hb hle, rfl⟩

end Sys2Proof.Machine

namespace Sys2Proof.Safety

open Sys2Proof.Machine

/-- Unit `x` runs, or has completed, the ENCODE that `x₀` started on the message `m`. -/
structure EncodeRun (c : Caps) (x₀ : CodecUnit) (m : List Byte) (x : CodecUnit) : Prop extends UnitInv c .enc x where
  ilen_eq : x.ilen = x₀.ilen
  n_eq : x.n = x₀.ilen
  ibuf_eq : x.ibuf = x₀.ibuf
  /-- The output so far is `encode` of the input so far. -/
  encoded : readCells x.obuf 0 x.opos = some (encodeMessage (m.take x.ipos))
  /-- A completion comes when the whole message is read, and its result is all of the output. -/
  completed : x.status.busy = false → x.status.done = true ∧ x.olen = x.opos ∧ x.ipos = x.n

section EncodeRun

variable {c : Caps} {x₀ x y : CodecUnit} {m : List Byte}

theorem EncodeRun.atStart (h : UnitInv c .enc x₀) (hm : messageOf x₀ = some m) : EncodeRun c x₀ m x₀.atStart where
  toUnitInv := h.atStart (messageWritten_of_messageOf hm)
  ilen_eq := rfl
  n_eq := rfl
  ibuf_eq := rfl
  encoded := rfl
  completed := nofun

/-- A group starts at a chunk boundary, so its characters are the next part of `encode` of the message. -/
theorem encodeMessage_take_add {q : SymbolQuad} {bs : List Byte} {i k : Nat} (hi : i % 3 = 0) (hin : i ≤ m.length)
    (hbs : (m.drop i).take k = bs) (hq : encodeMessage bs = quadChars q) :
    encodeMessage (m.take i) ++ quadChars q = encodeMessage (m.take (i + k)) := by
  have hboundary : (m.take i).length % 3 = 0 := by rwa [List.length_take_of_le hin]
  rw [List.take_add, encodeMessage_append hboundary, hbs, hq]

/-- With the characters of a group in its buffer the unit holds `encode` of what it has read, the group included. -/
theorem EncodeRun.encoded_afterGroup (h : EncodeRun c x₀ m x) (hm : messageOf x₀ = some m) (hlt : x.ipos < x.n)
    {bs : List Byte} {q : SymbolQuad} (hmsg : x.ipos + groupCount x ≤ x.n)
    (hread : readCells x.ibuf x.ipos (groupCount x) = some bs) (hq : packSeq bs = some q) :
    readCells (writeCells x.obuf x.opos (quadChars q)) 0 (x.opos + 4) =
      some (encodeMessage (m.take (x.ipos + groupCount x))) := by
  have hlen : m.length = x.n := (readCells_length hm).trans h.n_eq.symm
  have hmessage : readCells x.ibuf 0 x.n = some m := by rwa [h.ibuf_eq, h.n_eq]
  have hbs : (m.drop x.ipos).take (groupCount x) = bs :=
    Option.some.inj ((readCells_sub hmessage hmsg).symm.trans hread)
  have hboundary : x.ipos % 3 = 0 := by
    obtain ⟨hi, -⟩ : EncCursors x := h.cursors
    omega
  have hencode : encodeMessage bs = quadChars q := by
    have hgroup : bs.length = min 3 (x.n - x.ipos) := readCells_length hread
    obtain ⟨q', hq', hencode⟩ := packSeq_encode (bs := bs) (by omega) (by omega)
    rw [hencode, Option.some.inj (hq.symm.trans hq')]
  rw [← encodeMessage_take_add hboundary (by omega) hbs hencode]
  exact readCells_extend _ _ _ _ h.encoded

/-- The unit step of `ENC` keeps the run: a group encodes the next bytes, and the completion comes at the end. -/
theorem EncodeRun.encUnitStep (h : EncodeRun c x₀ m x) (hm : messageOf x₀ = some m)
    (hy : encUnitStep (c.ocap .enc) x = .next y) : EncodeRun c x₀ m y := by
  have hinv : UnitInv c .enc y := h.toUnitInv.of_unitEffect (encUnitStep_effect hy)
  rcases encUnitStep_cases hy with ⟨-, rfl⟩ | ⟨hb, hlt, bs, q, hmsg, hread, hq, -, rfl⟩ | ⟨-, hend, rfl⟩
  · exact h
  · exact ⟨hinv, h.ilen_eq, h.n_eq, h.ibuf_eq, h.encoded_afterGroup hm hlt hmsg hread hq, by simp [hb]⟩
  · exact ⟨hinv, h.ilen_eq, h.n_eq, h.ibuf_eq, h.encoded,
      fun _ => ⟨rfl, rfl, h.iposInMessage.antisymm (Nat.not_lt.mp hend)⟩⟩

theorem EncodeRun.unitStep_next (h : EncodeRun c x₀ m x) (hm : messageOf x₀ = some m) :
    ∃ y, unitStep c .enc x = .next y ∧ EncodeRun c x₀ m y := by
  obtain ⟨y, hy⟩ := h.toUnitInv.unitStep_next
  exact ⟨y, hy, h.encUnitStep hm hy⟩

theorem EncodeRun.messageOf_eq (h : EncodeRun c x₀ m x) (hm : messageOf x₀ = some m) : messageOf x = some m := by
  rwa [messageOf, h.ibuf_eq, h.ilen_eq]

theorem EncodeRun.statusWord_of_idle (h : EncodeRun c x₀ m x) (hidle : x.status.busy = false) :
    statusWord x.status = 0b0010#4 := by
  obtain ⟨hdone, -, -⟩ := h.completed hidle
  rw [statusWord, h.encNoError rfl, hdone, hidle]
  rfl

theorem EncodeRun.resultOf_of_idle (h : EncodeRun c x₀ m x) (hm : messageOf x₀ = some m) (hidle : x.status.busy = false) :
    resultOf x = some (encodeMessage m) := by
  obtain ⟨-, holen, hipos⟩ := h.completed hidle
  have hread : x.ipos = m.length := hipos.trans (h.n_eq.trans (readCells_length hm).symm)
  rw [resultOf, holen, h.encoded, hread, List.take_length]

theorem EncodeRun.olen_of_idle (h : EncodeRun c x₀ m x) (hm : messageOf x₀ = some m) (hidle : x.status.busy = false) :
    x.olen = 4 * ((m.length + 2) / 3) :=
  (readCells_length (h.resultOf_of_idle hm hidle)).symm.trans (encodeMessage_length m)

end EncodeRun

/-- Settles O39: START begins the run, each turn of `ENC` keeps it, and after the steps left at START the unit is idle. -/
theorem encodeEndsWithItsResult : Obligations.EncodeEndsWithItsResult := by
  intro s m hs hidle hm
  have hstart : exec .encode s = .next (s.setUnit .enc s.enc.atStart) :=
    startUnit_eq_next.mpr ⟨hidle, messageWritten_of_messageOf hm, rfl⟩
  have hleft : stepsLeft .enc s.enc.atStart = (m.length + 2) / 3 + 1 := by
    rw [stepsLeft_enc_of_busy rfl, readCells_length hm]
    rfl
  obtain ⟨y, hrun, hy, hend⟩ := run_scheduled_completes (u := .enc) (P := EncodeRun Config.caps s.enc m)
    (fun x hx => hx.unitStep_next hm) (s := s.setUnit .enc s.enc.atStart) (EncodeRun.atStart hs.enc hm) hleft.le
  exact ⟨_, _, hstart, hrun, hy.statusWord_of_idle hend, hy.olen_of_idle hm hend, hy.resultOf_of_idle hm hend,
    hy.ibuf_eq, hy.ilen_eq, rfl, rfl⟩

/-- Settles O41: START begins the run, and no step of a host that spares `ENC` or of `DEC` touches it. -/
theorem encodeAgreesUnderAnySchedule : Obligations.EncodeAgreesUnderAnySchedule := by
  intro s t0 t m k hs _ hm hspares hstart hrun hend
  obtain ⟨-, -, rfl⟩ := startUnit_eq_next.mp hstart
  have ht : EncodeRun Config.caps s.enc m t.enc := run_spares_keeps (u := .enc)
    (fun x y hx hy => hx.encUnitStep hm hy) (s := s.setUnit .enc s.enc.atStart) hspares (EncodeRun.atStart hs.enc hm) hrun
  exact ⟨ht.statusWord_of_idle hend, ht.olen_of_idle hm hend, ht.resultOf_of_idle hm hend, ht.messageOf_eq hm⟩

end Sys2Proof.Safety
end

section
/-! SUPPORT. The steps of `DEC` at its turn: a group, the error completions and the completion (rules R166 to R168, R172, R186). -/

namespace Sys2Proof.Machine

section QuadBranches

variable {cap : Nat} {x : CodecUnit} {ys : List Byte}

/-- The bytes of a quad that is full, or the last, are written (rule R172). -/
theorem decQuad_group (hquad : 3 ≤ ys.length ∨ x.ipos + 4 = x.n) (hroom : x.opos + ys.length ≤ cap) :
    decQuad cap x (.ok ys) = .next (x.afterGroup (writeCells x.obuf x.opos ys) 4 ys.length) := by
  have hwrite : memWrite cap x.obuf x.opos ys = .next _ := memWrite_eq_next.mpr ⟨hroom, rfl⟩
  have hgroup : ¬(ys.length < 3 ∧ x.ipos + 4 ≠ x.n) := by omega
  simp only [decQuad, if_neg hgroup, hwrite, andThen_next]

/-- A padded quad that is not the last is an error (rule R167). -/
theorem decQuad_padded (hpadded : ys.length < 3) (hlast : x.ipos + 4 ≠ x.n) :
    decQuad cap x (.ok ys) = .next (x.atError .invalidCharacter) := if_pos ⟨hpadded, hlast⟩

end QuadBranches

/-- A quad that ends in `=` gives less than three bytes (rules R142, R143). -/
theorem unpack_length_lt_of_pad {c0 c1 c2 : Byte} {ys : List Byte} (h : unpack c0 c1 c2 padCode = .ok ys) :
    ys.length < 3 := by
  rw [unpack_length h]
  split
  · decide
  · rw [if_pos rfl]
    decide

/-- Settles O31: the step is the group branch of `DEC`'s unit step. -/
theorem decoderGroupStep : Obligations.DecoderGroupStep := by
  intro s ts c0 c1 c2 c3 ys ht hb hn hmsg hr hys hquad hroom
  have hgroup := decQuad_group (hquad.imp_left Eq.ge) hroom
  rw [← hys] at hgroup
  exact (step_turn_eq_next ht).mpr ⟨_, (decUnitStep_quad hb hn hmsg hr).trans hgroup, rfl⟩

/-- Settles O32: the length check fails, or the unpacker does, or it succeeds on a quad whose pad makes it too short. -/
theorem decoderErrorCompletion : Obligations.DecoderErrorCompletion := by
  intro s ts ht hb failed
  refine ⟨fun hn => (step_turn_eq_next ht).mpr ⟨_, decUnitStep_badLength hb hn, rfl⟩,
    fun c0 c1 c2 c3 hn hmsg hr hcause => ?_⟩
  refine (step_turn_eq_next ht).mpr ⟨s.dec.atError .invalidCharacter, (decUnitStep_quad hb hn hmsg hr).trans ?_, rfl⟩
  cases hunpack : unpack c0 c1 c2 c3 with
  | fail e =>
    rw [unpack_fail hunpack]
    rfl
  | ok ys =>
    rcases hcause with hfail | ⟨rfl, hlast⟩
    · cases hunpack.symm.trans hfail
    · exact decQuad_padded (unpack_length_lt_of_pad hunpack) hlast

/-- Settles O33: the step is the completion branch of `DEC`'s unit step. -/
theorem decoderCompletionStep : Obligations.DecoderCompletionStep := by
  intro s ts ht hb hn hle
  exact (step_turn_eq_next ht).mpr ⟨_, decUnitStep_completion hb hn hle, rfl⟩

end Sys2Proof.Machine
end

section
/-! SUPPORT. The function `decode` of rule R165, quad by quad: that it inverts `encode` (R169), the length of what it gives (R170),
and where it succeeds (R166, R171). -/

namespace Sys2Proof.Machine

open Sys2Proof.Safety

/-- Induction over the quads of a sequence whose length is a multiple of 4. -/
theorem quads_induction {motive : ∀ cs : List Byte, cs.length % 4 = 0 → Prop} (nil : motive [] rfl)
    (quad : ∀ c0 c1 c2 c3 rest (h : rest.length % 4 = 0), motive rest h →
      motive (c0 :: c1 :: c2 :: c3 :: rest) (by simpa [Nat.add_assoc] using h)) :
    ∀ cs h, motive cs h
  | [], _ => nil
  | c0 :: c1 :: c2 :: c3 :: rest, h =>
    have hrest : rest.length % 4 = 0 := by simpa [Nat.add_assoc] using h
    quad c0 c1 c2 c3 rest hrest (quads_induction nil quad rest hrest)
  | [_], h => absurd h (by simp)
  | [_, _], h => absurd h (by simp)
  | [_, _, _], h => absurd h (by simp)

theorem Result.bind_pure {α : Type} (r : Result α) : r.bind .ok = r := by cases r <;> rfl

theorem Result.bind_assoc {α β γ : Type} (r : Result α) (f : α → Result β) (g : β → Result γ) :
    (r.bind f).bind g = r.bind fun a => (f a).bind g := by
  cases r <;> rfl

theorem Result.bind_eq_ok {α β : Type} {r : Result α} {f : α → Result β} {b : β} :
    r.bind f = .ok b ↔ ∃ a, r = .ok a ∧ f a = .ok b := by
  cases r <;> simp

theorem Result.bind_eq_fail {α β : Type} {r : Result α} {f : α → Result β} {e : Err} :
    r.bind f = .fail e ↔ r = .fail e ∨ ∃ a, r = .ok a ∧ f a = .fail e := by
  cases r <;> simp

theorem decodeMessage_nil : decodeMessage [] = .ok [] := rfl

/-- The length check comes first (rule R166). -/
theorem decodeMessage_badLength {cs : List Byte} (h : cs.length % 4 ≠ 0) : decodeMessage cs = .fail .invalidLength :=
  if_pos h

section Quad

variable {c0 c1 c2 c3 : Byte} {rest ys : List Byte} (hrest : rest.length % 4 = 0)

include hrest

/-- `decode` of one more quad (rule R165). -/
theorem decodeMessage_quad :
    decodeMessage (c0 :: c1 :: c2 :: c3 :: rest) = (unpack c0 c1 c2 c3).bind fun ys =>
      if ys.length < 3 ∧ rest ≠ [] then .fail .invalidCharacter
      else (decodeMessage rest).bind fun zs => .ok (ys ++ zs) := by
  have hlen : ¬(c0 :: c1 :: c2 :: c3 :: rest).length % 4 ≠ 0 := by simpa [Nat.add_assoc] using hrest
  have hdecode : decodeMessage rest = decodeQuads rest := if_neg (not_not.mpr hrest)
  rw [decodeMessage, if_neg hlen, decodeQuads_quad, hdecode]

theorem decodeMessage_quad_fail {e : Err} (h : unpack c0 c1 c2 c3 = .fail e) :
    decodeMessage (c0 :: c1 :: c2 :: c3 :: rest) = .fail e := by
  rw [decodeMessage_quad hrest, h, Result.bind_fail]

theorem decodeMessage_quad_padded (h : unpack c0 c1 c2 c3 = .ok ys) (hpadded : ys.length < 3) (hne : rest ≠ []) :
    decodeMessage (c0 :: c1 :: c2 :: c3 :: rest) = .fail .invalidCharacter := by
  rw [decodeMessage_quad hrest, h, Result.bind_ok, if_pos ⟨hpadded, hne⟩]

theorem decodeMessage_quad_group (h : unpack c0 c1 c2 c3 = .ok ys) (hquad : 3 ≤ ys.length ∨ rest = []) :
    decodeMessage (c0 :: c1 :: c2 :: c3 :: rest) = (decodeMessage rest).bind fun zs => .ok (ys ++ zs) := by
  have hgroup : ¬(ys.length < 3 ∧ rest ≠ []) := fun ⟨hlt, hne⟩ => hquad.elim hlt.not_ge hne
  rw [decodeMessage_quad hrest, h, Result.bind_ok, if_neg hgroup]

/-- A message decodes when its first quad unpacks, full or the last, and the rest decodes. -/
theorem decodeMessage_quad_eq_ok {zs : List Byte} :
    decodeMessage (c0 :: c1 :: c2 :: c3 :: rest) = .ok zs ↔
      ∃ ys, unpack c0 c1 c2 c3 = .ok ys ∧ (3 ≤ ys.length ∨ rest = []) ∧
        ∃ ws, decodeMessage rest = .ok ws ∧ ys ++ ws = zs := by
  constructor
  · intro h
    obtain ⟨ys, hys, hgroup⟩ := Result.bind_eq_ok.mp ((decodeMessage_quad hrest).symm.trans h)
    split at hgroup
    · cases hgroup
    · next hquad =>
      obtain ⟨ws, hws, happend⟩ := Result.bind_eq_ok.mp hgroup
      exact ⟨ys, hys, (not_and_or.mp hquad).imp Nat.not_lt.mp not_not.mp, ws, hws, Result.ok.inj happend⟩
  · rintro ⟨ys, hys, hquad, ws, hws, rfl⟩
    rw [decodeMessage_quad_group hrest hys hquad, hws, Result.bind_ok]

theorem decodeMessage_quad_succeeds :
    (∃ zs, decodeMessage (c0 :: c1 :: c2 :: c3 :: rest) = .ok zs) ↔
      (∃ ys, unpack c0 c1 c2 c3 = .ok ys ∧ (3 ≤ ys.length ∨ rest = [])) ∧ ∃ ws, decodeMessage rest = .ok ws := by
  simp only [decodeMessage_quad_eq_ok hrest]
  constructor
  · rintro ⟨zs, ys, hys, hquad, ws, hws, -⟩
    exact ⟨⟨ys, hys, hquad⟩, ws, hws⟩
  · rintro ⟨⟨ys, hys, hquad⟩, ws, hws⟩
    exact ⟨_, ys, hys, hquad, ws, hws, rfl⟩

/-- The characters of a packed group, a full one or the last, decode to the group (rules R147, R165). -/
theorem decodeMessage_quadChars_append {bs : List Byte} {q : SymbolQuad} (hq : packSeq bs = some q)
    (hquad : 3 ≤ bs.length ∨ rest = []) :
    decodeMessage (quadChars q ++ rest) = (decodeMessage rest).bind fun zs => .ok (bs ++ zs) :=
  decodeMessage_quad_group hrest (unpackInvertsPack bs q hq) hquad

end Quad

/-- Settles O43, by induction over the chunks: each packed chunk unpacks, and only the last is short. -/
theorem decodeInvertsEncode : Obligations.DecodeInvertsEncode := by
  intro m
  induction m using encodeMessage.induct with
  | case1 => rfl
  | case2 b0 => exact decodeMessage_quadChars_append (rest := []) rfl (bs := [b0]) rfl (.inr rfl)
  | case3 b0 b1 => exact decodeMessage_quadChars_append (rest := []) rfl (bs := [b0, b1]) rfl (.inr rfl)
  | case4 b0 b1 b2 rest ih =>
    have hrest : (encodeMessage rest).length % 4 = 0 := by
      rw [encodeMessage_length]
      exact Nat.mul_mod_right ..
    rw [encodeMessage_chunk, decodeMessage_quadChars_append hrest (bs := [b0, b1, b2]) rfl (.inl le_rfl), ih]
    rfl

section UnpackedQuad

variable {c0 c1 c2 c3 : Byte} {ys : List Byte}

/-- Each pad of a quad stands for a byte less (rules R102, R140). -/
theorem unpack_length_add_pads (h : unpack c0 c1 c2 c3 = .ok ys) :
    ys.length + [c0, c1, c2, c3].count padCode = 3 ∧ 1 ≤ ys.length := by
  obtain ⟨h0, h1, h23⟩ := unpack_ok_iff.mp ⟨ys, h⟩
  have ne_pad : ∀ {c}, c ∈ alphabet → c ≠ padCode := fun hc e => pad_not_mem (e ▸ hc)
  rw [unpack_length h, List.count_cons_of_ne (ne_pad h0), List.count_cons_of_ne (ne_pad h1)]
  rcases h23 with ⟨rfl, rfl⟩ | ⟨h2, rfl⟩ | ⟨h2, h3⟩
  · exact ⟨rfl, le_rfl⟩
  · rw [if_neg fun h => ne_pad h2 h.1, List.count_cons_of_ne (ne_pad h2)]
    decide
  · rw [if_neg fun h => ne_pad h2 h.1, if_neg (ne_pad h3), List.count_cons_of_ne (ne_pad h2),
      List.count_cons_of_ne (ne_pad h3)]
    decide

/-- A quad unpacks to three bytes exactly when it has four data characters (rules R102, R141). -/
theorem unpack_full_iff :
    (∃ ys, unpack c0 c1 c2 c3 = .ok ys ∧ 3 ≤ ys.length) ↔
      c0 ∈ alphabet ∧ c1 ∈ alphabet ∧ c2 ∈ alphabet ∧ c3 ∈ alphabet := by
  constructor
  · rintro ⟨ys, hys, hfull⟩
    obtain ⟨h0, h1, h23⟩ := unpack_ok_iff.mp ⟨ys, hys⟩
    have h3 : c3 ≠ padCode := by
      rintro rfl
      exact (unpack_length_lt_of_pad hys).not_ge hfull
    rcases h23 with ⟨-, hpad⟩ | ⟨-, hpad⟩ | ⟨h2, h3⟩
    · exact absurd hpad h3
    · exact absurd hpad h3
    · exact ⟨h0, h1, h2, h3⟩
  · rintro ⟨h0, h1, h2, h3⟩
    obtain ⟨ys, hys⟩ := unpack_ok_iff.mpr ⟨h0, h1, .inr (.inr ⟨h2, h3⟩)⟩
    have hpad : c3 ≠ padCode := fun e => pad_not_mem (e ▸ h3)
    have hlen : ys.length = 3 := by rw [unpack_length hys, if_neg fun h => hpad h.2, if_neg hpad]
    exact ⟨ys, hys, hlen.ge⟩

end UnpackedQuad

/-- Every quad gives three bytes less its pads, and only the last has pads (rule R170). -/
theorem decodeMessage_length_add_pads {cs : List Byte} (hcs : cs.length % 4 = 0) {ys : List Byte}
    (h : decodeMessage cs = .ok ys) :
    ys.length + cs.count padCode = 3 * (cs.length / 4) ∧ cs.count padCode ≤ 2 := by
  induction cs, hcs using quads_induction generalizing ys with
  | nil =>
    obtain rfl := Result.ok.inj (decodeMessage_nil.symm.trans h)
    exact ⟨rfl, Nat.zero_le 2⟩
  | quad c0 c1 c2 c3 rest hrest ih =>
    obtain ⟨xs, hxs, hquad, ws, hws, rfl⟩ := (decodeMessage_quad_eq_ok hrest).mp h
    obtain ⟨hquadLength, hpos⟩ := unpack_length_add_pads hxs
    obtain ⟨hlen, hpads⟩ := ih hws
    have hcount : (c0 :: c1 :: c2 :: c3 :: rest).count padCode = [c0, c1, c2, c3].count padCode + rest.count padCode :=
      List.count_append (l₁ := [c0, c1, c2, c3])
    have hlast : 3 ≤ xs.length ∨ rest.count padCode = 0 := hquad.imp_right fun (e : rest = []) => by rw [e]; rfl
    rw [hcount, List.length_append]
    simp only [List.length_cons]
    omega

/-- Only a message whose length is a multiple of 4 decodes (rule R166). -/
theorem length_mod_of_decodeMessage_ok {cs ys : List Byte} (h : decodeMessage cs = .ok ys) : cs.length % 4 = 0 := by
  by_contra hcs
  cases (decodeMessage_badLength hcs).symm.trans h

/-- Settles O47: the output buffer has three cells for every four of the input buffer. -/
theorem decodedLength : Obligations.DecodedLength := by
  intro cs ys h
  obtain ⟨hlen, hpads⟩ := decodeMessage_length_add_pads (length_mod_of_decodeMessage_ok h) h
  refine ⟨hlen, hpads, fun hfits => ?_⟩
  calc ys.length ≤ 3 * (cs.length / 4) := hlen ▸ Nat.le_add_right ..
    _ ≤ Config.caps.ocap .dec := Nat.mul_le_mul_left 3 (Nat.div_le_div_right hfits)

/-- Data characters, and after them at most two pads: the texts of rule R171 but for their length. -/
def PadsAtEnd (cs : List Byte) : Prop :=
  ∃ (front : List Byte) (p : Nat), p ≤ 2 ∧ cs = front ++ List.replicate p padCode ∧ ∀ c ∈ front, c ∈ alphabet

theorem padsAtEnd_nil : PadsAtEnd [] := ⟨[], 0, by simp⟩

theorem padsAtEnd_cons {c : Byte} {cs : List Byte} :
    PadsAtEnd (c :: cs) ↔ (c ∈ alphabet ∧ PadsAtEnd cs) ∨ (c = padCode ∧ (cs = [] ∨ cs = [padCode])) := by
  constructor
  · rintro ⟨front, p, hp, hcs, hfront⟩
    cases front with
    | nil => match p, hp, hcs with
      | 1, _, hcs => exact .inr ((List.cons.inj hcs).imp_right .inl)
      | 2, _, hcs => exact .inr ((List.cons.inj hcs).imp_right .inr)
    | cons d front =>
      obtain ⟨rfl, rfl⟩ := List.cons.inj hcs
      obtain ⟨hc, hfront⟩ := List.forall_mem_cons.mp hfront
      exact .inl ⟨hc, front, p, hp, rfl, hfront⟩
  · rintro (⟨hc, front, p, hp, rfl, hfront⟩ | ⟨rfl, rfl | rfl⟩)
    · exact ⟨c :: front, p, hp, rfl, List.forall_mem_cons.mpr ⟨hc, hfront⟩⟩
    · exact ⟨[], 1, by simp⟩
    · exact ⟨[], 2, by simp [List.replicate]⟩

/-- A quad with more quads after it has data characters only. -/
theorem padsAtEnd_quad_append {c0 c1 c2 c3 : Byte} {rest : List Byte} (hrest : rest.length % 4 = 0) (hne : rest ≠ []) :
    PadsAtEnd (c0 :: c1 :: c2 :: c3 :: rest) ↔
      (c0 ∈ alphabet ∧ c1 ∈ alphabet ∧ c2 ∈ alphabet ∧ c3 ∈ alphabet) ∧ PadsAtEnd rest := by
  have hne' : rest ≠ [padCode] := by
    rintro rfl
    cases hrest
  simp only [padsAtEnd_cons, List.cons.injEq, hne, hne', reduceCtorEq, and_false, or_false, and_assoc]

/-- On the last quad the texts of rule R171 are those that unpack. -/
theorem padsAtEnd_quad {c0 c1 c2 c3 : Byte} : PadsAtEnd [c0, c1, c2, c3] ↔ ∃ ys, unpack c0 c1 c2 c3 = .ok ys := by
  rw [unpack_ok_iff]
  simp only [padsAtEnd_cons, padsAtEnd_nil, List.cons.injEq, reduceCtorEq, and_false, and_true, or_false]
  tauto

/-- Quad by quad, a message decodes exactly when it is data characters and then its pads (rule R171). -/
theorem decodeMessage_succeeds_iff {cs : List Byte} (hcs : cs.length % 4 = 0) :
    (∃ ys, decodeMessage cs = .ok ys) ↔ PadsAtEnd cs := by
  induction cs, hcs using quads_induction with
  | nil => exact ⟨fun _ => padsAtEnd_nil, fun _ => ⟨[], decodeMessage_nil⟩⟩
  | quad c0 c1 c2 c3 rest hrest ih =>
    by_cases hnil : rest = []
    · subst hnil
      simp [decodeMessage_quad_succeeds hrest, padsAtEnd_quad, decodeMessage_nil]
    · rw [padsAtEnd_quad_append hrest hnil, ← unpack_full_iff, ← ih]
      simp [decodeMessage_quad_succeeds hrest, hnil]

/-- Past the length check there is one failure (rules R167, R168). -/
theorem decodeMessage_fail {cs : List Byte} (hcs : cs.length % 4 = 0) {e : Err} (h : decodeMessage cs = .fail e) :
    e = .invalidCharacter := by
  induction cs, hcs using quads_induction with
  | nil => cases h
  | quad c0 c1 c2 c3 rest hrest ih =>
    rw [decodeMessage_quad hrest] at h
    rcases Result.bind_eq_fail.mp h with hunpack | ⟨ys, -, h⟩
    · exact unpack_fail hunpack
    · split at h
      · cases h
        rfl
      · rcases Result.bind_eq_fail.mp h with h | ⟨zs, -, h⟩
        · exact ih h
        · cases h

/-- Settles O48: past the length check a message decodes exactly when its pads stand at the end, and it has one way to fail. -/
theorem decodeSucceedsExactlyOnWellFormed : Obligations.DecodeSucceedsExactlyOnWellFormed := by
  intro cs
  by_cases hcs : cs.length % 4 = 0
  · refine ⟨(decodeMessage_succeeds_iff hcs).trans (and_iff_right hcs).symm, ⟨fun h => ?_, absurd hcs⟩, fun _ hno => ?_⟩
    · cases decodeMessage_fail hcs h
    · cases h : decodeMessage cs with
      | ok ys => exact absurd h (hno ys)
      | fail e => rw [decodeMessage_fail hcs h]
  · have hfail := decodeMessage_badLength hcs
    simp [hfail, hcs]

end Sys2Proof.Machine
end

section
/-! SUPPORT. A DECODE from START to completion: what stands in the output buffer, and what is left to read, make up `decode` of
the message (rules R172, R173). -/

namespace Sys2Proof.Safety

open Sys2Proof.Machine

/-- A unit that has completed with the result `r` of `decode`: its bytes, or its error and no length (rules R172, R186). -/
def DecodeCompleted (x : CodecUnit) : Result (List Byte) → Prop
  | .ok ys => x.status = ⟨false, true, none⟩ ∧ resultOf x = some ys
  | .fail e => x.status = ⟨false, true, some e⟩ ∧ x.olen = 0

/-- Unit `x` runs, or has completed, the DECODE that `x₀` started on the message `cs`. -/
structure DecodeRun (c : Caps) (x₀ : CodecUnit) (cs : List Byte) (x : CodecUnit) : Prop extends UnitInv c .dec x where
  ilen_eq : x.ilen = x₀.ilen
  n_eq : x.n = x₀.ilen
  ibuf_eq : x.ibuf = x₀.ibuf
  /-- While it runs, `decode` of the message is the output so far and then `decode` of what is left to read. -/
  pending : x.status.busy = true → ∃ zs, readCells x.obuf 0 x.opos = some zs ∧
    decodeMessage cs = (decodeMessage (cs.drop x.ipos)).bind fun ws => .ok (zs ++ ws)
  completed : x.status.busy = false → DecodeCompleted x (decodeMessage cs)

section DecodeCompleted

variable {x : CodecUnit} {ys : List Byte}

theorem DecodeCompleted.ok (h : DecodeCompleted x (.ok ys)) :
    statusWord x.status = 0b0010#4 ∧ x.olen = ys.length ∧ resultOf x = some ys := by
  obtain ⟨hstatus, hresult⟩ := h
  exact ⟨congrArg statusWord hstatus, (readCells_length hresult).symm, hresult⟩

theorem DecodeCompleted.invalidLength (h : DecodeCompleted x (.fail .invalidLength)) :
    statusWord x.status = 0b0110#4 ∧ x.olen = 0 := h.imp_left (congrArg statusWord)

theorem DecodeCompleted.invalidCharacter (h : DecodeCompleted x (.fail .invalidCharacter)) :
    statusWord x.status = 0b1010#4 ∧ x.olen = 0 := h.imp_left (congrArg statusWord)

theorem decodeCompleted_atError (x : CodecUnit) (e : Err) : DecodeCompleted (x.atError e) (.fail e) := ⟨rfl, rfl⟩

end DecodeCompleted

section DecodeRun

variable {c : Caps} {x₀ x y : CodecUnit} {cs : List Byte}

theorem DecodeRun.atStart (h : UnitInv c .dec x₀) (hcs : messageOf x₀ = some cs) : DecodeRun c x₀ cs x₀.atStart where
  toUnitInv := h.atStart (messageWritten_of_messageOf hcs)
  ilen_eq := rfl
  n_eq := rfl
  ibuf_eq := rfl
  pending _ := ⟨[], rfl, (Result.bind_pure _).symm⟩
  completed := nofun

/-- An error completion is right when `decode` has that error. -/
theorem DecodeRun.atError (h : DecodeRun c x₀ cs x) {e : Err} (he : decodeMessage cs = .fail e) :
    DecodeRun c x₀ cs (x.atError e) where
  toUnitInv := h.toUnitInv.atError rfl e
  ilen_eq := h.ilen_eq
  n_eq := h.n_eq
  ibuf_eq := h.ibuf_eq
  pending := nofun
  completed _ := he ▸ decodeCompleted_atError x e

theorem DecodeRun.length_eq (h : DecodeRun c x₀ cs x) (hcs : messageOf x₀ = some cs) : cs.length = x.n :=
  (readCells_length hcs).trans h.n_eq.symm

/-- The quad at the input cursor is the head of what is left to read. -/
theorem DecodeRun.drop_eq_quad (h : DecodeRun c x₀ cs x) (hcs : messageOf x₀ = some cs) {c0 c1 c2 c3 : Byte}
    (hmsg : x.ipos + 4 ≤ x.n) (hread : readCells x.ibuf x.ipos 4 = some [c0, c1, c2, c3]) :
    cs.drop x.ipos = c0 :: c1 :: c2 :: c3 :: cs.drop (x.ipos + 4) := by
  have hmessage : readCells x.ibuf 0 x.n = some cs := by rwa [h.ibuf_eq, h.n_eq]
  have hquad : (cs.drop x.ipos).take 4 = [c0, c1, c2, c3] :=
    Option.some.inj ((readCells_sub hmessage hmsg).symm.trans hread)
  rw [← List.take_append_drop 4 (cs.drop x.ipos), hquad, List.drop_drop]
  rfl

/-- A quad that `DEC` takes is decoded as `decode` decodes it: its bytes, or the error. -/
theorem DecodeRun.decQuad (h : DecodeRun c x₀ cs x) (hcs : messageOf x₀ = some cs) (hb : x.status.busy = true)
    (hn : x.n % 4 = 0) (hinv : UnitInv c .dec y) {c0 c1 c2 c3 : Byte} (hmsg : x.ipos + 4 ≤ x.n)
    (hread : readCells x.ibuf x.ipos 4 = some [c0, c1, c2, c3])
    (hy : decQuad (c.ocap .dec) x (unpack c0 c1 c2 c3) = .next y) : DecodeRun c x₀ cs y := by
  obtain ⟨zs, hzs, hdecode⟩ := h.pending hb
  obtain ⟨hi, -⟩ : DecCursors x := h.cursors
  have hlen : (cs.drop (x.ipos + 4)).length = x.n - (x.ipos + 4) := by rw [List.length_drop, h.length_eq hcs]
  have hrest : (cs.drop (x.ipos + 4)).length % 4 = 0 := by omega
  have hlast : cs.drop (x.ipos + 4) = [] ↔ x.ipos + 4 = x.n := by
    rw [← List.length_eq_zero_iff]
    omega
  rw [h.drop_eq_quad hcs hmsg hread] at hdecode
  rcases decQuad_cases hy with ⟨e, hunpack, rfl⟩ | ⟨ys, hunpack, hpadded, hmore, rfl⟩ | ⟨ys, hunpack, hquad, -, rfl⟩
  · exact h.atError (by rw [hdecode, decodeMessage_quad_fail hrest hunpack, Result.bind_fail])
  · have hne := mt hlast.mp hmore
    exact h.atError (by rw [hdecode, decodeMessage_quad_padded hrest hunpack hpadded hne, Result.bind_fail])
  · refine ⟨hinv, h.ilen_eq, h.n_eq, h.ibuf_eq, fun _ => ⟨zs ++ ys, readCells_extend _ _ _ _ hzs, ?_⟩, by simp [hb]⟩
    rw [hdecode, decodeMessage_quad_group hrest hunpack (hquad.imp_right hlast.mpr)]
    simp only [Result.bind_assoc, Result.bind_ok, List.append_assoc, afterGroup_ipos]

/-- The unit step of `DEC` keeps the run. -/
theorem DecodeRun.decUnitStep (h : DecodeRun c x₀ cs x) (hcs : messageOf x₀ = some cs)
    (hy : decUnitStep (c.ocap .dec) x = .next y) : DecodeRun c x₀ cs y := by
  have hinv : UnitInv c .dec y := h.toUnitInv.of_unitEffect (decUnitStep_effect hy)
  rcases decUnitStep_cases hy with
    ⟨-, rfl⟩ | ⟨-, hn, rfl⟩ | ⟨hb, hn, -, c0, c1, c2, c3, hmsg, hread, hq⟩ | ⟨hb, -, hend, rfl⟩
  · exact h
  · exact h.atError (decodeMessage_badLength (by rwa [h.length_eq hcs]))
  · exact h.decQuad hcs hb hn hinv hmsg hread hq
  · obtain ⟨zs, hzs, hdecode⟩ := h.pending hb
    have hread : cs.drop x.ipos = [] := List.drop_eq_nil_of_le (h.length_eq hcs ▸ Nat.not_lt.mp hend)
    rw [hread, decodeMessage_nil, Result.bind_ok, List.append_nil] at hdecode
    refine ⟨hinv, h.ilen_eq, h.n_eq, h.ibuf_eq, nofun, fun _ => ?_⟩
    rw [hdecode]
    exact ⟨by rw [atSuccess_status, h.err_of_busy hb], hzs⟩

theorem DecodeRun.unitStep_next (h : DecodeRun c x₀ cs x) (hcs : messageOf x₀ = some cs) :
    ∃ y, unitStep c .dec x = .next y ∧ DecodeRun c x₀ cs y := by
  obtain ⟨y, hy⟩ := h.toUnitInv.unitStep_next
  exact ⟨y, hy, h.decUnitStep hcs hy⟩

theorem DecodeRun.messageOf_eq (h : DecodeRun c x₀ cs x) (hcs : messageOf x₀ = some cs) : messageOf x = some cs := by
  rwa [messageOf, h.ibuf_eq, h.ilen_eq]

theorem stepsLeft_dec_atStart_le (x : CodecUnit) : stepsLeft .dec x.atStart ≤ x.ilen / 4 + 1 := by
  by_cases hn : x.ilen % 4 = 0
  · exact (stepsLeft_dec_of_busy rfl hn).le
  · simp [stepsLeft, hn]

end DecodeRun

/-- Settles O40: START begins the run, each turn of `DEC` keeps it, and after as many turns as START leaves steps at most the unit
is idle. -/
theorem decodeEndsWithItsResult : Obligations.DecodeEndsWithItsResult := by
  intro s cs hs hidle hcs
  have hstart : exec .decode s = .next (s.setUnit .dec s.dec.atStart) :=
    startUnit_eq_next.mpr ⟨hidle, messageWritten_of_messageOf hcs, rfl⟩
  have hleft : stepsLeft .dec s.dec.atStart ≤ cs.length / 4 + 1 :=
    readCells_length hcs ▸ stepsLeft_dec_atStart_le s.dec
  obtain ⟨y, hrun, hy, hend⟩ := run_scheduled_completes (u := .dec) (P := DecodeRun Config.caps s.dec cs)
    (fun x hx => hx.unitStep_next hcs) (s := s.setUnit .dec s.dec.atStart) (DecodeRun.atStart hs.dec hcs) hleft
  have hcompleted := hy.completed hend
  exact ⟨_, _, hstart, hrun, fun ys hr => (hr ▸ hcompleted).ok, fun hr => (hr ▸ hcompleted).invalidLength,
    fun hr => (hr ▸ hcompleted).invalidCharacter, hy.ibuf_eq, hy.ilen_eq, rfl, rfl⟩

/-- Settles O42: START begins the run, and no step of a host that spares `DEC` or of `ENC` touches it. -/
theorem decodeAgreesUnderAnySchedule : Obligations.DecodeAgreesUnderAnySchedule := by
  intro s t0 t cs k hs _ hcs hspares hstart hrun hend
  obtain ⟨-, -, rfl⟩ := startUnit_eq_next.mp hstart
  have ht : DecodeRun Config.caps s.dec cs t.dec := run_spares_keeps (u := .dec)
    (fun x y hx hy => hx.decUnitStep hcs hy) (s := s.setUnit .dec s.dec.atStart) hspares (DecodeRun.atStart hs.dec hcs) hrun
  have hcompleted := ht.completed hend
  refine ⟨ht.messageOf_eq hcs, ?_⟩
  split
  · next hr => exact (hr ▸ hcompleted).ok
  · next hr => exact (hr ▸ hcompleted).invalidLength
  · next hr => exact (hr ▸ hcompleted).invalidCharacter

end Sys2Proof.Safety
end

section
/-! SUPPORT. The read of `x_STATUS`, the one register read that does not ask for an idle unit (rules R195, R217). -/

namespace Sys2Proof.Machine

/-- The read of register 1 of a unit is its status read, whatever BUSY is (rules R29, R195). -/
theorem applyInput_readStatus (c : Caps) (u : UnitId) (s : State) :
    applyInput c (.regRead u 1) s = .next (readStatus u s) := rfl

/-- Settles O52: the access is the status read, which is one reply. -/
theorem statusReadInEveryState : Obligations.StatusReadInEveryState := by
  intro s u
  rw [applyInput_readStatus, readStatus]

end Sys2Proof.Machine
end

section
/-! SUPPORT. What a busy unit refuses, and the reset of both units at once (rules R210 to R212, R216 to R218). -/

namespace Sys2Proof.Machine

section BusyUnit

variable {u : UnitId} {s : State}

/-- START while BUSY is 1, whatever the message (rule R218, U4). -/
theorem startUnit_of_busy (h : (s.unit u).status.busy = true) : startUnit u s = .refused .startWhileBusy := if_pos h

/-- An access that asks for an idle unit is refused by a busy one, whatever it would have done (rule R216). -/
theorem whenIdle_of_busy (h : (s.unit u).status.busy = true) (o : Host.Outcome State Fault Refusal) :
    whenIdle u s o = .refused .accessWhileBusy := if_pos h

end BusyUnit

/-- Settles O28: each command is the START of its unit. -/
theorem startWhileBusyIsRefused : Obligations.StartWhileBusyIsRefused :=
  fun _ => ⟨fun henc => startUnit_of_busy (u := .enc) henc, fun hdec => startUnit_of_busy (u := .dec) hdec⟩

/-- Settles O58: the write of 1 to `x_CTRL` is START, and each other access is one that `whenIdle` stops. -/
theorem busyUnitRefusesTheHost : Obligations.BusyUnitRefusesTheHost := by
  intro s u a v hb
  have hstart : applyInput Config.caps (.regWrite u 0 1) s = .refused .startWhileBusy := by
    rw [applyInput_start, exec_commandOf, startUnit_of_busy hb]
  have stopped := whenIdle_of_busy hb
  exact ⟨stopped _, stopped _, hstart, stopped _, stopped _⟩

/-- Reset leaves each unit as it is right after reset, in any state (rules R210, R211). -/
theorem unit_resetUnits (s : State) (u : UnitId) : (resetUnits s).unit u = State.reset.unit u := by cases u <;> rfl

/-- Settles O59: each unit is the one of the state right after reset, whose values are the table's. -/
theorem resetAbandonsEverything : Obligations.ResetAbandonsEverything := by
  intro s
  refine ⟨resetUnits s, rfl, fun u => ?_, rfl, rfl, rfl, rfl⟩
  obtain ⟨hstatus, hilen, holen, hn, hipos, hopos, hcells, -⟩ := resetLeavesTheTable u
  rw [unit_resetUnits]
  exact ⟨hstatus, hilen, holen, hn, hipos, hopos, hcells⟩

end Sys2Proof.Machine
end
